-- ==== Sys2Proof/Word.lean ====
section
/-! DEFINITION. The word types of the CORE block: 8-bit bytes, the 16-bit program counter, 4-bit fields. -/

namespace Sys2Proof

/-- A register or memory value: an unsigned 8-bit number (R7, R13). -/
abbrev Byte := BitVec 8

/-- A program-counter pattern or Program Store address, 0x0000 to 0xFFFF (R7, R18). -/
abbrev PcWord := BitVec 16

/-- A register index: "individually addressable by a 4-bit index (0–15)" (R13). -/
abbrev RegIdx := BitVec 4

/-- An opcode: "4-bit operation selector, the high nibble of an instruction byte" (glossary, R45). -/
abbrev Opcode := BitVec 4

end Sys2Proof
end

