-- ==== Sys2Proof/Config.lean ====
section
/-! DEFINITION. The implementation parameters of 00_scope.md section 3: the one behavioural parameter and the fixed sizes. The spec leaves no value open after an instruction, so there is no free value here. -/

namespace Sys2Proof

/-- `PC_FETCH_POLICY` (R5): how the 16-bit program counter is read as a Program Store index. -/
inductive PcFetchPolicy where
  /-- The spec's default: the program counter is a signed integer, and a fetch needs a non-negative one. -/
  | signedFault
  /-- The program counter is an unsigned index, and every fetch is admitted. -/
  | unsigned
  deriving DecidableEq, Repr

namespace Config

/-- "`SignedFault` (the spec's default)" (R5). -/
def defaultPolicy : PcFetchPolicy := .signedFault

/-- Program Store capacity: 65,536 bytes (R25). -/
def progSize : Nat := 65536

/-- Working Memory capacity: 256 bytes (R26). -/
def dmemSize : Nat := 256

/-- Number of registers: "exactly 16 one-byte slots" (R13). -/
def regCount : Nat := 16

/-- The entry point: "the first step after reset fetches `PROG[0x0000]`" (R95). -/
def resetVector : PcWord := 0x0000#16

/-- What a memory byte that nothing has written reads as, in both spaces: 0x00 (R28). -/
def blankByte : Byte := 0x00#8

/-- `OBS_INDEX_WIDTH`: width of the observation index port (R92). -/
def obsIndexWidth : Nat := 8

end Config

end Sys2Proof
end

