-- ==== Sys2Proof/Syntax.lean ====
section
/-! DEFINITION. The instruction set (R48): one constructor per row of spec/opcode_table.json. -/

namespace Sys2Proof

/-- What one byte decoded as an opcode byte says (R45, R48): the operation of its high nibble with `sel`,
its low nibble. NOP and the unrecognized opcode keep the nibble they ignore, so that the byte can be read back.
LOAD-IMM's data byte is no field here: it is fetched by the next step and "never decoded as an opcode" (R46, R60). -/
inductive Instr where
  /-- 0x0 NOP; `sel` is ignored (R59). -/
  | nop (sel : RegIdx)
  /-- 0x1 LOAD-IMM: the next fetched byte becomes `x[s]` (R60). -/
  | loadImm (s : RegIdx)
  /-- 0x2 LOAD-MEM: `x[s] <- DMEM[x[2]]` (R61). -/
  | loadMem (s : RegIdx)
  /-- 0x3 STORE-MEM: `DMEM[x[2]] <- x[s]` (R62). -/
  | storeMem (s : RegIdx)
  /-- 0x4 SWAP-MOVE: exchange `x[3]` and `x[s]` (R63). -/
  | swapMove (s : RegIdx)
  /-- 0x5 SHL: shift `x[s]` left by one (R64). -/
  | shl (s : RegIdx)
  /-- 0x6 NOT: complement `x[s]` (R65). -/
  | notOp (s : RegIdx)
  /-- 0x7 OR: `x[s] <- x[0] | x[1]` (R66). -/
  | orOp (s : RegIdx)
  /-- 0x8 AND: `x[s] <- x[0] & x[1]` (R67). -/
  | andOp (s : RegIdx)
  /-- 0x9 XOR: `x[s] <- x[0] XOR x[1]` (R68). -/
  | xorOp (s : RegIdx)
  /-- 0xA ADD: `x[s] <- trunc_8(x[0] + x[1])` (R69). -/
  | add (s : RegIdx)
  /-- 0xB SUB: `x[s] <- trunc_8(x[0] - x[1])` (R70). -/
  | sub (s : RegIdx)
  /-- 0xC CMP: `x[s] <- 0x01` only when `x[0] > x[1]` (R71). -/
  | cmp (s : RegIdx)
  /-- 0xD SKIP-IF-ODD: skip one byte when `x[s]` is odd (R74). -/
  | skipIfOdd (s : RegIdx)
  /-- 0xE JUMP: `pc <- concat(x[4], x[s])` (R75). -/
  | jump (s : RegIdx)
  /-- 0xF, the unrecognized opcode: halt; `sel` is ignored (R76). -/
  | unrecognized (sel : RegIdx)
  deriving DecidableEq, Repr

end Sys2Proof
end

