-- ==== Sys2Proof/WellFormed.lean ====
section
/-! DEFINITION. Which instructions, program images and image texts are well formed. -/

namespace Sys2Proof

/-- The low nibble an instruction carries (`selReg`, R45). -/
def Instr.sel : Instr → RegIdx
  | .nop s => s
  | .loadImm s => s
  | .loadMem s => s
  | .storeMem s => s
  | .swapMove s => s
  | .shl s => s
  | .notOp s => s
  | .orOp s => s
  | .andOp s => s
  | .xorOp s => s
  | .add s => s
  | .sub s => s
  | .cmp s => s
  | .skipIfOdd s => s
  | .jump s => s
  | .unrecognized s => s

/-- An instruction names a register that exists. Every term of `Instr` passes: the 4-bit field carries the bound
itself, and "no instruction refuses a reserved index" (R14), "no encoding is illegal" (R82). -/
def Instr.wf (i : Instr) : Bool := decide (i.sel.toNat < Config.regCount)

/-- A program image is loadable: "0 <= N <= 65,536" bytes (R97). -/
def imageFits (bytes : List Byte) : Bool := decide (bytes.length ≤ Config.progSize)

/-- A program image that fits the Program Store: the launch parameter of a run (R11, R97). -/
structure Image where
  bytes : List Byte
  fits : imageFits bytes = true
  deriving DecidableEq, Repr

/-- A hexadecimal digit: 0 to 9, a to f and A to F (R98). -/
def isHexDigit (c : Char) : Bool :=
  (decide (48 ≤ c.toNat) && decide (c.toNat ≤ 57)) || (decide (97 ≤ c.toNat) && decide (c.toNat ≤ 102))
    || (decide (65 ≤ c.toNat) && decide (c.toNat ≤ 70))

/-- An image text is accepted: hexadecimal digits only, even length (R98). -/
def hexTextWf (text : List Char) : Bool := text.all isHexDigit && decide (text.length % 2 = 0)

end Sys2Proof
end

