-- ==== Sys2Proof/Decode.lean ====
section
/-! DEFINITION. Decoding and encoding: the opcode byte (R45, R48), the pending-load state that tells data bytes from opcode bytes (R23, R52, R55), and whole instructions in a byte stream (R44, R46). -/

namespace Sys2Proof

/-- The pending-load state `pend` (R23), "the only decoder state" (R52): what the next fetched byte is. -/
inductive Pend where
  /-- Fetching an opcode. -/
  | op
  /-- Fetching the immediate for register `r`. -/
  | imm (r : RegIdx)
  deriving DecidableEq, Repr

/-- What a fetched byte is, given `pend` (R53, R55): an opcode byte, or raw data for a register. -/
inductive Fetched where
  | opcode (i : Instr)
  | data (r : RegIdx) (d : Byte)
  deriving DecidableEq, Repr

/-- Why a byte sequence holds no whole instruction at its start. No byte value is ever rejected (R51). -/
inductive DecodeError where
  /-- There is no byte at all. -/
  | noOpcodeByte
  /-- A LOAD-IMM opcode byte with no data byte after it. -/
  | noDataByte (s : RegIdx)
  deriving DecidableEq, Repr

/-- `b[7:4]`, the opcode (R6, R45). -/
def highNibble (b : Byte) : Opcode := b.extractLsb' 4 4

/-- `b[3:0]`, the register selector (R6, R45). -/
def lowNibble (b : Byte) : RegIdx := b.extractLsb' 0 4

/-- The opcode map of R48, on the two fields of a Format O byte. Sixteen opcode values, none left over (R50, R51). -/
def decodeFields (op : Opcode) (s : RegIdx) : Instr :=
  match op.toNat with
  | 0x0 => .nop s
  | 0x1 => .loadImm s
  | 0x2 => .loadMem s
  | 0x3 => .storeMem s
  | 0x4 => .swapMove s
  | 0x5 => .shl s
  | 0x6 => .notOp s
  | 0x7 => .orOp s
  | 0x8 => .andOp s
  | 0x9 => .xorOp s
  | 0xA => .add s
  | 0xB => .sub s
  | 0xC => .cmp s
  | 0xD => .skipIfOdd s
  | 0xE => .jump s
  | _ => .unrecognized s

/-- Decode a byte fetched with `pend = Op` (R45, R48): total on all 256 values (R51). -/
def decodeOpcode (b : Byte) : Instr := decodeFields (highNibble b) (lowNibble b)

/-- What the byte `b` fetched in pending-load state `p` is (R53): with `pend = Imm(r)` it is data and is not decoded. -/
def decodeFetched (p : Pend) (b : Byte) : Fetched :=
  match p with
  | .op => .opcode (decodeOpcode b)
  | .imm r => .data r b

/-- Length of an instruction in bytes, told from the opcode alone (R44, R52). -/
def instrLength : Instr → Nat
  | .loadImm _ => 2
  | .nop _ | .loadMem _ | .storeMem _ | .swapMove _ | .shl _ | .notOp _ | .orOp _ | .andOp _ | .xorOp _
  | .add _ | .sub _ | .cmp _ | .skipIfOdd _ | .jump _ | .unrecognized _ => 1

/-- Decode the whole instruction at the start of a byte sequence read with `pend = Op`: the instruction, its data
bytes (one for LOAD-IMM, else none) and the bytes after it (R44, R46, R52). -/
def decode (bytes : List Byte) : Except DecodeError (Instr × List Byte × List Byte) :=
  match bytes with
  | [] => .error .noOpcodeByte
  | b :: rest =>
    match decodeOpcode b with
    | .loadImm s =>
      match rest with
      | [] => .error (.noDataByte s)
      | d :: rest' => .ok (.loadImm s, [d], rest')
    | i => .ok (i, [], rest)

/-- The opcode of an instruction: the "opcode" column of R48. -/
def opcodeOf : Instr → Opcode
  | .nop _ => 0x0#4
  | .loadImm _ => 0x1#4
  | .loadMem _ => 0x2#4
  | .storeMem _ => 0x3#4
  | .swapMove _ => 0x4#4
  | .shl _ => 0x5#4
  | .notOp _ => 0x6#4
  | .orOp _ => 0x7#4
  | .andOp _ => 0x8#4
  | .xorOp _ => 0x9#4
  | .add _ => 0xA#4
  | .sub _ => 0xB#4
  | .cmp _ => 0xC#4
  | .skipIfOdd _ => 0xD#4
  | .jump _ => 0xE#4
  | .unrecognized _ => 0xF#4

/-- Encode an instruction's opcode byte, pattern `oooossss` (R45). -/
def encodeOpcode (i : Instr) : Byte := opcodeOf i ++ i.sel

/-- The data bytes of an instruction whose immediate is `d`: the one byte after LOAD-IMM's opcode byte, else none (R46, R47). -/
def dataBytes (i : Instr) (d : Byte) : List Byte :=
  match instrLength i with
  | 2 => [d]
  | _ => []

/-- Encode a whole instruction in address order: Format O, or Format I with the immediate `d` (R45, R46). -/
def encode (i : Instr) (d : Byte) : List Byte := encodeOpcode i :: dataBytes i d

/-- The bytes of a table word (bit 0 the least significant bit of the first byte), in address order: two bytes, the
longest instruction, with every bit from `nbits` up read as 0. -/
def tableBytes (nbits w : Nat) : List Byte :=
  [BitVec.ofNat 8 (w % 2 ^ nbits), BitVec.ofNat 8 (w % 2 ^ nbits / 256)]

/-- The instruction the decoder reads from a word numbered as spec/opcode_table.json numbers it. -/
def decodeTableWord (nbits w : Nat) : Option Instr :=
  match decode (tableBytes nbits w) with
  | .ok (i, _, _) => some i
  | .error _ => none

end Sys2Proof
end

