-- ==== Sys2Proof/Machine/State.lean ====
section
/-! DEFINITION. The state of the CORE block (R12, with the launch parameters of R11), the reasons a step stops, and the state after reset (R28, R94). -/

namespace Sys2Proof.Machine

/-- A byte-addressed memory in canonical form: (address, byte) pairs, addresses strictly rising, no pair holding the
byte an unlisted address reads as (`Config.blankByte`, R28). `Memory.wf` says so. -/
abbrev Memory := List Host.Cell

/-- Everything the spec gives the machine (R12). `prog` and `policy` are launch parameters (R11): no step writes them. -/
structure State where
  /-- The Register File `x[0..15]` (R13). -/
  x : Vector Byte 16
  /-- The program counter, a 16-bit pattern (R17, R18). -/
  pc : PcWord
  /-- The pending-load state (R23). -/
  pend : Pend
  /-- The Working Memory `DMEM[0..255]` (R26). -/
  dmem : Memory
  /-- Halt latch (R22). -/
  halted : Bool
  /-- Fault latch (R22). -/
  faulted : Bool
  /-- Cause code of the fault, 2 bits (R22, R81). -/
  faultCause : BitVec 2
  /-- The Program Store `PROG[0..65535]` (R25). -/
  prog : Memory
  /-- `PC_FETCH_POLICY` (R5). -/
  policy : PcFetchPolicy
  deriving DecidableEq, Repr

/-- Why a step ends in a fault. -/
inductive Fault where
  /-- FetchOutOfRange (R80), raised by the fetch of any step whose program counter R43 does not admit; no
  instruction's meaning raises it. `after` is the latched state the fault leaves: the state before the step with the
  three status fields of R80 written. Safe: the model stops where a realisation might go on (D2). -/
  | fetchOutOfRange (after : State)
  deriving DecidableEq, Repr

/-- Why a step has no meaning. No step of this model answers one. -/
inductive Refusal where
  /-- An instruction without a meaning yet, rejected by its mnemonic in `exec`. Safe. No arm answers it. -/
  | notModelled (mnemonic : String)
  deriving DecidableEq, Repr

/-- The state after reset with a Program Store content and a fetch policy as launch parameters (R28, R94, R95). -/
def State.launch (prog : Memory) (policy : PcFetchPolicy) : State :=
  { x := Vector.replicate 16 0x00#8
    pc := Config.resetVector
    pend := .op
    dmem := []
    halted := false
    faulted := false
    faultCause := 0#2
    prog := prog
    policy := policy }

/-- The state right after reset with nothing loaded: an all-zero Program Store (the image of `N = 0` bytes, R97) and the
default fetch policy (R5). -/
def State.reset : State := State.launch [] Config.defaultPolicy

end Sys2Proof.Machine
end

