-- ==== Sys2Proof/Machine/Ops.lean ====
section
/-! DEFINITION. The named operations over memory, registers, program counter and status that the meanings and the step share. -/

namespace Sys2Proof.Machine

/-- What one step answers. -/
abbrev Outcome := Host.Outcome State Fault Refusal

/-! ### Memory -/

/-- The byte at address `a`: the listed one, else 0x00 (R28). -/
def Memory.read (m : Memory) (a : Nat) : Byte :=
  match m with
  | [] => Config.blankByte
  | (b, v) :: rest => if b = a then v else Memory.read rest a

/-- Put `v` at address `a`, keeping the canonical form: a byte equal to what an unlisted address reads as is not listed. -/
def Memory.write (m : Memory) (a : Nat) (v : Byte) : Memory :=
  m.filter (fun c => decide (c.1 < a)) ++ (if v = Config.blankByte then [] else [(a, v)])
    ++ m.filter (fun c => decide (a < c.1))

/-- The canonical form of a memory of `size` bytes: addresses strictly rising and below `size`, no blank byte listed. -/
abbrev Memory.wf (size : Nat) (m : Memory) : Prop :=
  m.Pairwise (fun c d => c.1 < d.1) ∧ ∀ c ∈ m, c.1 < size ∧ c.2 ≠ Config.blankByte

/-- The memory that holds `bytes` from address `base` on and is blank elsewhere ("left-aligned", "zero-padded", R94). -/
def Memory.ofBytesFrom (base : Nat) (bytes : List Byte) : Memory :=
  match bytes with
  | [] => []
  | b :: rest =>
    (if b = Config.blankByte then [] else [(base, b)]) ++ Memory.ofBytesFrom (base + 1) rest

/-- The Program Store content of an image: its bytes from 0x0000, then zeros (R97). -/
def Memory.ofBytes (bytes : List Byte) : Memory := Memory.ofBytesFrom 0 bytes

/-! ### Registers -/

/-- `x[i]` (R8). -/
def State.reg (s : State) (i : RegIdx) : Byte := s.x[i.toNat]'i.isLt

/-- `x[i] <- v` (R8). -/
def State.setReg (s : State) (i : RegIdx) (v : Byte) : State := { s with x := s.x.set i.toNat v i.isLt }

/-! ### Program counter and pending-load state -/

/-- `pc <- t` (R8). -/
def State.setPc (s : State) (t : PcWord) : State := { s with pc := t }

/-- `pc <- trunc_16(pc + 1)` (R18): modulo 2^16. -/
def State.advancePc (s : State) : State := s.setPc (s.pc + 1#16)

/-- `pend <- p` (R23). -/
def State.setPend (s : State) (p : Pend) : State := { s with pend := p }

/-! ### The two address spaces (R27) -/

/-- `MemRead(a, 1)` of the Working Memory (R32). -/
def State.memRead (s : State) (a : Byte) : Byte := s.dmem.read a.toNat

/-- `MemWrite(a, 1, v)` of the Working Memory (R32). -/
def State.memWrite (s : State) (a : Byte) (v : Byte) : State := { s with dmem := s.dmem.write a.toNat v }

/-- `ProgRead(a)` of the Program Store (R31), at the index `a` read as 0 to 65,535. -/
def State.progRead (s : State) (a : PcWord) : Byte := s.prog.read a.toNat

/-! ### Fetch admission (R43) -/

/-- `signed_16(p)` (R7): the two's complement reading of a program-counter pattern. -/
def signed16 (p : PcWord) : Int := if p[15] then (p.toNat : Int) - 65536 else p.toNat

/-- Whether R43 admits a fetch at `p`: always under `Unsigned`, only when `p[15] = 0` under `SignedFault`. -/
def admitted (policy : PcFetchPolicy) (p : PcWord) : Bool :=
  match policy with
  | .unsigned => true
  | .signedFault => !p[15]

/-! ### Status: halt, fault, stopped (R22) -/

/-- `halted = 1` or `faulted = 1`: the block performs no step (R85). -/
def State.stopped (s : State) : Bool := s.halted || s.faulted

/-- The continuation signal `cont` (R54): 1 until a step halts or faults, then 0 until reset. -/
def State.cont (s : State) : Bool := !s.stopped

/-- The halt of R76: `halted <- 1`, nothing else. A normal next state, not a fault. -/
def State.setHalted (s : State) : State := { s with halted := true }

/-- Latch a fault with its cause code (R80, R81): the status fields only; `pc` keeps the faulting address. -/
def State.latchFault (s : State) (cause : BitVec 2) : State := { s with faulted := true, faultCause := cause }

/-- Cause code 1, FetchOutOfRange (R81). -/
def causeFetchOutOfRange : BitVec 2 := 1#2

/-- TAKING THE ONE EXCEPTION (R80): `faulted <- 1`, `fault_cause <- 1`, no other change, and the step ends as a fault.
There is no trap entry, vector or saved state (R85) and no return but reset (R86). -/
def raiseFetchOutOfRange (s : State) : Outcome := .fault (.fetchOutOfRange (s.latchFault causeFetchOutOfRange))

/-! ### Fetch (R53, R84) -/

/-- What the start of a step finds. -/
inductive FetchResult where
  /-- The block is halted or faulted: no step. -/
  | noStep
  /-- The fetch at `pc` is not admitted. -/
  | outOfRange
  /-- A byte was fetched, `pc` advanced in `after`. -/
  | byte (f : Fetched) (after : State)
  deriving DecidableEq, Repr

/-- The checks of R84 in their order, then the fetch of R53: read `PROG[pc]`, advance `pc`, classify the byte by `pend`. -/
def fetch (s : State) : FetchResult :=
  if s.stopped then .noStep
  else if admitted s.policy s.pc then .byte (decodeFetched s.pend (s.progRead s.pc)) s.advancePc
  else .outOfRange

/-! ### Placing an instruction where the next step fetches -/

/-- Make `s` able to fetch an opcode byte: not stopped, `pend = Op`, and `pc` at an admitted address (its own where
admitted, else the reset vector). -/
def State.readyToFetch (s : State) : State :=
  { s with
    halted := false
    faulted := false
    faultCause := 0#2
    pend := .op
    pc := if admitted s.policy s.pc then s.pc else Config.resetVector }

/-- Put `bytes` into the Program Store from address `a` on, addresses modulo 2^16. Only the host can do this (R97). -/
def State.placeBytes (s : State) (a : PcWord) (bytes : List Byte) : State :=
  match bytes with
  | [] => s
  | b :: rest => { s with prog := s.prog.write a.toNat b }.placeBytes (a + 1#16) rest

/-- `s` made ready to fetch, with the first instruction of `bytes` (its own length, no more) at `pc`. -/
def State.placeInstr (s : State) (bytes : List Byte) : State :=
  match decode bytes with
  | .ok (i, data, _) => s.readyToFetch.placeBytes s.readyToFetch.pc (encodeOpcode i :: data)
  | .error _ => s.readyToFetch

end Sys2Proof.Machine
end

