-- ==== Sys2Proof/Machine/Operands.lean ====
section
/-! DEFINITION. Operand forms (R14, R47): the explicit register `x[s]` is `State.reg`; here are the implicit registers of the reserved roles and what is built from them. -/

namespace Sys2Proof.Machine

/-- Alias `OP1` = r0, operand-1 (R14). -/
def op1Reg : RegIdx := 0#4
/-- Alias `OP2` = r1, operand-2 (R14). -/
def op2Reg : RegIdx := 1#4
/-- Alias `ADDR` = r2, RAM-address (R14). -/
def addrReg : RegIdx := 2#4
/-- Alias `MOVT` = r3, move-target (R14). -/
def movtReg : RegIdx := 3#4
/-- Alias `JHI` = r4, jump-high-byte (R14). -/
def jhiReg : RegIdx := 4#4

/-- Operand-1 of OR, AND, XOR, ADD, SUB and CMP (R47). -/
def State.op1 (s : State) : Byte := s.reg op1Reg

/-- Operand-2 of OR, AND, XOR, ADD, SUB and CMP (R47). -/
def State.op2 (s : State) : Byte := s.reg op2Reg

/-- The Working Memory address of LOAD-MEM and STORE-MEM: `x[2]` itself, no offset (R47, R37). -/
def State.ramAddr (s : State) : Byte := s.reg addrReg

/-- The partner of SWAP-MOVE (R47). -/
def State.moveTarget (s : State) : Byte := s.reg movtReg

/-- `concat(h, l) = (h << 8) | l` (R7). -/
def concatBytes (h l : Byte) : PcWord := h ++ l

/-- The JUMP target `concat(x[4], x[s])` (R47, R75). -/
def State.jumpTarget (s : State) (i : RegIdx) : PcWord := concatBytes (s.reg jhiReg) (s.reg i)

end Sys2Proof.Machine
end

