-- ==== Sys2Proof/Machine/Alu.lean ====
section
/-! DEFINITION. The ALU results (R64 to R72): total byte functions that lose carry, borrow and overflow. -/

namespace Sys2Proof.Machine

/-- `trunc_8(v) = v mod 256`, of an exact integer (R7). -/
def trunc8 (v : Int) : Byte := BitVec.ofInt 8 v

/-- `trunc_8(v << 1)` (R64). -/
def aluShl (v : Byte) : Byte := trunc8 ((v.toNat : Int) * 2)

/-- `v XOR 0xFF` (R65). -/
def aluNot (v : Byte) : Byte := v ^^^ 0xFF#8

/-- `a | b` (R66). -/
def aluOr (a b : Byte) : Byte := a ||| b

/-- `a & b` (R67). -/
def aluAnd (a b : Byte) : Byte := a &&& b

/-- `a XOR b` (R68). -/
def aluXor (a b : Byte) : Byte := a ^^^ b

/-- `trunc_8(a + b)` (R69, R72). -/
def aluAdd (a b : Byte) : Byte := trunc8 ((a.toNat : Int) + b.toNat)

/-- `trunc_8(a - b)` (R70, R72). -/
def aluSub (a b : Byte) : Byte := trunc8 ((a.toNat : Int) - b.toNat)

end Sys2Proof.Machine
end

