-- ==== Sys2Proof/Machine/Flags.lean ====
section
/-! DEFINITION. The block has no condition codes, status flags or predicates (R20), so nothing here writes one. These are the two conditions its instructions test and the result byte of CMP. -/

namespace Sys2Proof.Machine

/-- `a > b` on bytes: unsigned comparison (R7, R71). -/
def gtUnsigned (a b : Byte) : Bool := decide (b.toNat < a.toNat)

/-- `v[0] = 1`: the test of SKIP-IF-ODD (R74). -/
def isOdd (v : Byte) : Bool := v[0]

/-- The byte CMP writes when its condition holds (R71). -/
def cmpTrue : Byte := 0x01#8

end Sys2Proof.Machine
end

