-- ==== Sys2Proof/Machine/Arith.lean ====
section
/-! DEFINITION. ADD, SUB, CMP (42_arith_compare.md). -/

namespace Sys2Proof.Machine

/-- ADD (R69). -/
def execAdd (i : RegIdx) (s : State) : Outcome := .next (s.setReg i (aluAdd s.op1 s.op2))

/-- SUB (R70). -/
def execSub (i : RegIdx) (s : State) : Outcome := .next (s.setReg i (aluSub s.op1 s.op2))

/-- CMP (R71): writes 0x01 when `x[0] > x[1]`, and otherwise writes nothing ("left unchanged (not zeroed)"). -/
def execCmp (i : RegIdx) (s : State) : Outcome :=
  if gtUnsigned s.op1 s.op2 then .next (s.setReg i cmpTrue) else .next s

end Sys2Proof.Machine
end

