-- ==== Sys2Proof/Machine/BitOps.lean ====
section
/-! DEFINITION. SHL, NOT, OR, AND, XOR (41_bit_ops.md). -/

namespace Sys2Proof.Machine

/-- SHL (R64). -/
def execShl (i : RegIdx) (s : State) : Outcome := .next (s.setReg i (aluShl (s.reg i)))

/-- NOT (R65). -/
def execNot (i : RegIdx) (s : State) : Outcome := .next (s.setReg i (aluNot (s.reg i)))

/-- OR (R66). -/
def execOr (i : RegIdx) (s : State) : Outcome := .next (s.setReg i (aluOr s.op1 s.op2))

/-- AND (R67). -/
def execAnd (i : RegIdx) (s : State) : Outcome := .next (s.setReg i (aluAnd s.op1 s.op2))

/-- XOR (R68). -/
def execXor (i : RegIdx) (s : State) : Outcome := .next (s.setReg i (aluXor s.op1 s.op2))

end Sys2Proof.Machine
end

