-- ==== Sys2Proof/Machine/Control.lean ====
section
/-! DEFINITION. SKIP-IF-ODD, JUMP and the unrecognized opcode, which halts (43_control.md). -/

namespace Sys2Proof.Machine

/-- SKIP-IF-ODD (R74): one more byte is passed over, never a whole instruction (C4). -/
def execSkipIfOdd (i : RegIdx) (s : State) : Outcome :=
  if isOdd (s.reg i) then .next s.advancePc else .next s

/-- JUMP (R75): the target replaces the fetch increment and is not checked when it is written. -/
def execJump (i : RegIdx) (s : State) : Outcome := .next (s.setPc (s.jumpTarget i))

/-- The unrecognized opcode 0xF (R76): `halted <- 1`, a normal termination; `pc` stays one past the byte. -/
def execUnrecognized (_sel : RegIdx) (s : State) : Outcome := .next s.setHalted

end Sys2Proof.Machine
end

