-- ==== Sys2Proof/Machine/LoadMove.lean ====
section
/-! DEFINITION. NOP, LOAD-IMM (both its steps), LOAD-MEM, STORE-MEM, SWAP-MOVE (40_load_move.md). A meaning runs after the fetch: `pc` is already the fetch address plus one (R9). -/

namespace Sys2Proof.Machine

/-- NOP (R59): "No state change", whatever `sel` is (R49). -/
def execNop (_sel : RegIdx) (s : State) : Outcome := .next s

/-- LOAD-IMM, phase 1, the opcode step (R60): `pend <- Imm(s)`. -/
def execLoadImm (i : RegIdx) (s : State) : Outcome := .next (s.setPend (.imm i))

/-- LOAD-IMM, phase 2, the data step (R60, R53): the byte fetched with `pend = Imm(r)` goes verbatim into `x[r]`, and
`pend <- Op`. -/
def execDataByte (r : RegIdx) (d : Byte) (s : State) : Outcome := .next ((s.setReg r d).setPend .op)

/-- LOAD-MEM (R61): `x[s] <- MemRead(x[2], 1)`. -/
def execLoadMem (i : RegIdx) (s : State) : Outcome := .next (s.setReg i (s.memRead s.ramAddr))

/-- STORE-MEM (R62): `MemWrite(x[2], 1, x[s])`. -/
def execStoreMem (i : RegIdx) (s : State) : Outcome := .next (s.memWrite s.ramAddr (s.reg i))

/-- SWAP-MOVE (R63): both registers are read before either is written (R9). -/
def execSwapMove (i : RegIdx) (s : State) : Outcome :=
  .next ((s.setReg movtReg (s.reg i)).setReg i s.moveTarget)

end Sys2Proof.Machine
end

