-- ==== Sys2Proof/Machine/Dispatch.lean ====
section
/-! DEFINITION. One arm per constructor of Instr, in the opcode table's order (R53, R48). -/

namespace Sys2Proof.Machine

def exec (i : Instr) (s : State) : Host.Outcome State Fault Refusal :=
  match i with
  | .nop sel => Sys2Proof.Machine.execNop sel s
  | .loadImm r => Sys2Proof.Machine.execLoadImm r s
  | .loadMem r => Sys2Proof.Machine.execLoadMem r s
  | .storeMem r => Sys2Proof.Machine.execStoreMem r s
  | .swapMove r => Sys2Proof.Machine.execSwapMove r s
  | .shl r => Sys2Proof.Machine.execShl r s
  | .notOp r => Sys2Proof.Machine.execNot r s
  | .orOp r => Sys2Proof.Machine.execOr r s
  | .andOp r => Sys2Proof.Machine.execAnd r s
  | .xorOp r => Sys2Proof.Machine.execXor r s
  | .add r => Sys2Proof.Machine.execAdd r s
  | .sub r => Sys2Proof.Machine.execSub r s
  | .cmp r => Sys2Proof.Machine.execCmp r s
  | .skipIfOdd r => Sys2Proof.Machine.execSkipIfOdd r s
  | .jump r => Sys2Proof.Machine.execJump r s
  | .unrecognized sel => Sys2Proof.Machine.execUnrecognized sel s

end Sys2Proof.Machine
end

