-- ==== Sys2Proof/Machine/Step.lean ====
section
/-! DEFINITION. One step (R53, R84): the fetch, then the outcome it leads to; and where a host places an instruction for the next step. -/

namespace Sys2Proof.Machine

/-- One step requested of the block (R53). A halted or faulted block performs none and its state holds (R85); a fetch
that is not admitted raises the fault (R80); a data byte ends a LOAD-IMM (R60); an opcode byte runs its instruction. -/
def step (s : State) : Host.Outcome State Fault Refusal :=
  match fetch s with
  | .noStep => .next s
  | .outOfRange => raiseFetchOutOfRange s
  | .byte (.data r d) t => execDataByte r d t
  | .byte (.opcode i) t => exec i t

/-- `s` with the instruction of the table word `w` in the Program Store where the next step fetches, and all that the
fetch needs (not stopped, `pend = Op`, an admitted `pc`): the host's loading of a program (R97). -/
def State.withFetchWord (s : State) (nbits w : Nat) : State := s.placeInstr (tableBytes nbits w)

end Sys2Proof.Machine
end

