-- ==== Sys2Proof/Machine/Assembly.lean ====
section
/-! DEFINITION. The assembly forms of R56 and R57 as abstract syntax: what each assembles to, what a disassembler prints for a byte, and its spelling. Labels, comments and parsing are not modelled. -/

namespace Sys2Proof.Machine

/-- One assembly line (R56), the pseudo-instruction `HALT` and the directive `.byte` (R57). -/
inductive AsmLine where
  | nop
  | loadImm (s : RegIdx) (d : Byte)
  | loadMem (s : RegIdx)
  | storeMem (s : RegIdx)
  | swapMove (s : RegIdx)
  | shl (s : RegIdx)
  | notOp (s : RegIdx)
  | orOp (s : RegIdx)
  | andOp (s : RegIdx)
  | xorOp (s : RegIdx)
  | add (s : RegIdx)
  | sub (s : RegIdx)
  | cmp (s : RegIdx)
  | skipIfOdd (s : RegIdx)
  | jump (s : RegIdx)
  | halt
  | rawByte (d : Byte)
  deriving DecidableEq, Repr

/-- The bytes a line assembles to (R56, R57): `NOP` is 0x00 and `HALT` 0xF0. -/
def assembleLine : AsmLine → List Byte
  | .nop => encode (.nop 0#4) 0x00#8
  | .loadImm s d => encode (.loadImm s) d
  | .loadMem s => encode (.loadMem s) 0x00#8
  | .storeMem s => encode (.storeMem s) 0x00#8
  | .swapMove s => encode (.swapMove s) 0x00#8
  | .shl s => encode (.shl s) 0x00#8
  | .notOp s => encode (.notOp s) 0x00#8
  | .orOp s => encode (.orOp s) 0x00#8
  | .andOp s => encode (.andOp s) 0x00#8
  | .xorOp s => encode (.xorOp s) 0x00#8
  | .add s => encode (.add s) 0x00#8
  | .sub s => encode (.sub s) 0x00#8
  | .cmp s => encode (.cmp s) 0x00#8
  | .skipIfOdd s => encode (.skipIfOdd s) 0x00#8
  | .jump s => encode (.jump s) 0x00#8
  | .halt => encode (.unrecognized 0#4) 0x00#8
  | .rawByte d => [d]

/-- The bytes of a program, in address order (R58). -/
def assemble (lines : List AsmLine) : List Byte := lines.flatMap assembleLine

/-- What a disassembler prints for an instruction whose data byte, if it has one, is `d` (R57): "any byte 0xF0 to 0xFF
as `HALT` and any byte 0x01 to 0x0F as `NOP`". -/
def disassemble (i : Instr) (d : Byte) : AsmLine :=
  match i with
  | .nop _ => .nop
  | .loadImm s => .loadImm s d
  | .loadMem s => .loadMem s
  | .storeMem s => .storeMem s
  | .swapMove s => .swapMove s
  | .shl s => .shl s
  | .notOp s => .notOp s
  | .orOp s => .orOp s
  | .andOp s => .andOp s
  | .xorOp s => .xorOp s
  | .add s => .add s
  | .sub s => .sub s
  | .cmp s => .cmp s
  | .skipIfOdd s => .skipIfOdd s
  | .jump s => .jump s
  | .unrecognized _ => .halt

/-- A register's assembly name, `r0` to `r15` (R56). -/
def regName (s : RegIdx) : String := "r" ++ toString s.toNat

/-- A hexadecimal digit as it is printed. -/
def hexChar (v : BitVec 4) : Char := if v.toNat < 10 then Char.ofNat (48 + v.toNat) else Char.ofNat (55 + v.toNat)

/-- An immediate: `0x` and two hexadecimal digits, high nibble first (R56). -/
def immText (d : Byte) : String := "0x" ++ String.ofList [hexChar (highNibble d), hexChar (lowNibble d)]

/-- The spelling of a line (R56, R57). -/
def asmText : AsmLine → String
  | .nop => "NOP"
  | .loadImm s d => "LOAD-IMM " ++ regName s ++ ", " ++ immText d
  | .loadMem s => "LOAD-MEM " ++ regName s
  | .storeMem s => "STORE-MEM " ++ regName s
  | .swapMove s => "SWAP-MOVE " ++ regName s
  | .shl s => "SHL " ++ regName s
  | .notOp s => "NOT " ++ regName s
  | .orOp s => "OR " ++ regName s
  | .andOp s => "AND " ++ regName s
  | .xorOp s => "XOR " ++ regName s
  | .add s => "ADD " ++ regName s
  | .sub s => "SUB " ++ regName s
  | .cmp s => "CMP " ++ regName s
  | .skipIfOdd s => "SKIP-IF-ODD " ++ regName s
  | .jump s => "JUMP " ++ regName s
  | .halt => "HALT"
  | .rawByte d => ".byte " ++ immText d

end Sys2Proof.Machine
end

