-- ==== Sys2Proof/Machine/Loader.lean ====
section
/-! DEFINITION. The host's program-image contract (R97, R98): what image text and what images are accepted, and the state a run starts from. -/

namespace Sys2Proof.Machine

/-- The two construction failures (R97, R98). "Both are terminal to construction": no state exists. -/
inductive LoadError where
  /-- `DecodeError`: a non-hexadecimal character or an odd length. -/
  | decodeError
  /-- `CapacityError`: more than 65,536 bytes. -/
  | capacityError
  deriving DecidableEq, Repr

/-- The value of a hexadecimal digit, in either case (R98). -/
def hexDigit (c : Char) : Option (BitVec 4) :=
  if 48 ≤ c.toNat ∧ c.toNat ≤ 57 then some (BitVec.ofNat 4 (c.toNat - 48))
  else if 97 ≤ c.toNat ∧ c.toNat ≤ 102 then some (BitVec.ofNat 4 (c.toNat - 87))
  else if 65 ≤ c.toNat ∧ c.toNat ≤ 70 then some (BitVec.ofNat 4 (c.toNat - 55))
  else none

/-- The bytes of an image text: two digits a byte, the first the high nibble (R98, R58). -/
def decodeHex (text : List Char) : Except LoadError (List Byte) :=
  match text with
  | [] => .ok []
  | [_] => .error .decodeError
  | h :: l :: rest =>
    match hexDigit h, hexDigit l, decodeHex rest with
    | some vh, some vl, .ok bytes => .ok ((vh ++ vl) :: bytes)
    | _, _, _ => .error .decodeError

/-- Accept a byte sequence as a program image, or fail with `CapacityError` (R97). -/
def imageOfBytes (bytes : List Byte) : Except LoadError Image :=
  if h : imageFits bytes = true then .ok ⟨bytes, h⟩ else .error .capacityError

/-- The source's Loader on an image text: the digits first, then the capacity (R98). -/
def loadText (text : List Char) : Except LoadError Image :=
  match decodeHex text with
  | .ok bytes => imageOfBytes bytes
  | .error e => .error e

/-- The launch parameters of a run (R11): the program image and `PC_FETCH_POLICY`. -/
structure LaunchParams where
  image : Image
  policy : PcFetchPolicy
  deriving DecidableEq, Repr

/-- The state a run starts from (R94, R97, R101): reset, with the image in the Program Store followed by zeros. -/
def resetWith (p : LaunchParams) : State := State.launch (Memory.ofBytes p.image.bytes) p.policy

end Sys2Proof.Machine
end

