-- ==== Sys2Proof/Machine/Block.lean ====
section
/-! DEFINITION. The block at its ports (R10): observation, outputs and what one clock edge does (R30, R92, R96). -/

namespace Sys2Proof.Machine

/-- The observation port on any integer index (R92): the register, or zero outside 0 to 15. Never changes state. -/
def obs (s : State) (i : Int) : Byte :=
  if 0 ≤ i ∧ i ≤ 15 then s.reg (BitVec.ofNat 4 i.toNat) else 0x00#8

/-- The block's inputs at a clock edge (R10), and what the host writes into the Program Store while `rst = 1` (R97).
`imem_rdata` and `dmem_rdata` are no free inputs: the arrays attached to the ports are `prog` and `dmem`. -/
structure Inputs where
  rst : Bool
  stepEn : Bool
  obsIndex : BitVec Config.obsIndexWidth
  launch : LaunchParams
  deriving DecidableEq, Repr

/-- The block's outputs (R10). `dmemWdata` is the byte driven with `dmem_we = 1`, and none while `dmem_we = 0`, for
which the spec gives no value. -/
structure Outputs where
  imemAddr : PcWord
  dmemAddr : Byte
  dmemWdata : Option Byte
  dmemWe : Bool
  cont : Bool
  halted : Bool
  faulted : Bool
  faultCause : BitVec 2
  obsData : Byte
  deriving DecidableEq, Repr

/-- Whether a step happens at this edge (R96): `rst = 0`, `step_en = 1`, `halted = 0`, `faulted = 0`. -/
def stepsAtEdge (inp : Inputs) (s : State) : Bool := !inp.rst && inp.stepEn && !s.stopped

/-- The byte a STORE-MEM step writes, if the step at this edge is one (R30). -/
def storeByte (inp : Inputs) (s : State) : Option Byte :=
  if stepsAtEdge inp s then
    match fetch s with
    | .byte (.opcode (.storeMem r)) _ => some (s.reg r)
    | _ => none
  else none

/-- The outputs, combinational from the state and the inputs (R10, R30, R54, R92). -/
def outputs (inp : Inputs) (s : State) : Outputs :=
  { imemAddr := s.pc
    dmemAddr := s.reg 2#4
    dmemWdata := storeByte inp s
    dmemWe := (storeByte inp s).isSome
    cont := s.cont
    halted := s.halted
    faulted := s.faulted
    faultCause := s.faultCause
    obsData := obs s inp.obsIndex.toNat }

/-- The state a step leaves: a fault leaves its latched state (R80, R85). -/
def stateAfter (s : State) : State :=
  match step s with
  | .next t => t
  | .fault (.fetchOutOfRange t) => t
  | .refused _ => s

/-- One rising clock edge (R96): reset; else one step when enabled (none when halted or faulted); else state holds. -/
def clockEdge (inp : Inputs) (s : State) : State :=
  if inp.rst then resetWith inp.launch
  else if inp.stepEn then stateAfter s
  else s

end Sys2Proof.Machine
end

