-- ==== Sys2Proof/Safety.lean ====
section
/-! DEFINITION. The terms claims use: the invariant of the state, what a run's end is, and what a step leaves unchanged. -/

namespace Sys2Proof.Machine

/-- The invariant of every state the block can be in. -/
structure State.Inv (s : State) : Prop where
  /-- The Working Memory is in canonical form over its 256 addresses (R26). -/
  dmem_wf : s.dmem.wf Config.dmemSize
  /-- The Program Store is in canonical form over its 65,536 addresses (R25). -/
  prog_wf : s.prog.wf Config.progSize
  /-- "At most one of `halted` and `faulted` is ever 1" (R22). -/
  one_latch : ¬(s.halted = true ∧ s.faulted = true)
  /-- The cause code is 1 in a faulted state (R80) and "0 while `faulted = 0`" (R22). -/
  cause : s.faultCause = if s.faulted then 1#2 else 0#2
  /-- A halted state was left by an opcode byte decoded with `pend = Op` (R76). -/
  halted_op : s.halted = true → s.pend = .op
  /-- A faulted state keeps the faulting address in `pc` (R80). -/
  faulted_pc : s.faulted = true → admitted s.policy s.pc = false

/-- A state in which a step happens and its fetch is admitted (R84, R43). -/
structure State.Fetchable (s : State) : Prop where
  not_halted : s.halted = false
  not_faulted : s.faulted = false
  pc_admitted : admitted s.policy s.pc = true

/-- No byte of either memory reads differently (R26, R25). -/
structure SameMemories (s t : State) : Prop where
  dmem : ∀ a : Byte, t.memRead a = s.memRead a
  prog : ∀ a : PcWord, t.progRead a = s.progRead a

/-- Status, fetch policy and pending-load state are unchanged. -/
structure SameControl (s t : State) : Prop where
  pend : t.pend = s.pend
  halted : t.halted = s.halted
  faulted : t.faulted = s.faulted
  faultCause : t.faultCause = s.faultCause
  policy : t.policy = s.policy

/-- Every register is unchanged but those in `ds`. -/
def SameRegsExcept (ds : List RegIdx) (s t : State) : Prop := ∀ i : RegIdx, i ∉ ds → t.reg i = s.reg i

/-- The frame of an instruction that writes registers `ds` and nothing else: every other register, `pc`, the pending-load
state, the status, the fetch policy and every byte of both memories are unchanged. -/
structure OnlyRegs (ds : List RegIdx) (s t : State) : Prop where
  regs : SameRegsExcept ds s t
  pc : t.pc = s.pc
  control : SameControl s t
  memories : SameMemories s t

/-- How a run ends (R101). -/
inductive RunEnd where
  /-- The step that decoded opcode 0xF: a normal end. -/
  | halted (s : State)
  /-- The host allowed no further step: a normal end that says only how many steps ran. -/
  | stopped (s : State)
  /-- The step that raised FetchOutOfRange: never a normal end. -/
  | faulted (s : State)
  deriving DecidableEq, Repr

/-- What a state says of the run that led to it, when the host allows no further step (R101). -/
def runEndOf (s : State) : RunEnd :=
  if s.faulted then .faulted s else if s.halted then .halted s else .stopped s

/-- The driver's run (R100, R101): step while `cont = 1`, at most `bound` steps. -/
def drive (bound : Nat) (s : State) : RunEnd :=
  match bound with
  | 0 => runEndOf s
  | k + 1 =>
    if s.stopped then runEndOf s
    else
      match step s with
      | .next t => drive k t
      | .fault (.fetchOutOfRange t) => .faulted t
      | .refused _ => .stopped s

/-- What the host observes at an end of a run (R101): `Obs(i)` at a normal end, nothing at a fault, which is never one. -/
def RunEnd.observe (e : RunEnd) (i : Int) : Option Byte :=
  match e with
  | .halted s => some (obs s i)
  | .stopped s => some (obs s i)
  | .faulted _ => none

/-- The step from `s` is a STORE-MEM step at address `a` (R62). -/
def State.StoresTo (s : State) (a : Byte) : Prop :=
  s.Fetchable ∧ s.pend = .op ∧ (∃ r, decodeOpcode (s.progRead s.pc) = .storeMem r) ∧ s.reg 2#4 = a

/-- None of the first `k` steps from `s` is a STORE-MEM step at address `a`. -/
def NoStoreTo (a : Byte) (k : Nat) (s : State) : Prop :=
  ∀ j < k, ∀ v : State, core.run j s = .next v → ¬ v.StoresTo a

/-- `s` after each of `is` has run in turn, as `exec` answers. -/
def execAll (is : List Instr) (s : State) : Outcome :=
  match is with
  | [] => .next s
  | i :: rest =>
    match exec i s with
    | .next t => execAll rest t
    | .fault r => .fault r
    | .refused r => .refused r

end Sys2Proof.Machine
end

