-- ==== Sys2Proof/Certificates/Slice0/Obligations.lean ====
section
/-! DEFINITION. The statements for the provers, from the spec's numbered rules. In every per-instruction statement `s` is the state the meaning starts from: the fetch has already advanced `pc` (R9). -/

open Sys2Proof Sys2Proof.Machine

/-! ### Encoding -/

/-- R48: the opcode map, one clause per row, `sel` being the low nibble. -/
def Obligations.OpcodeMapDecodesEveryRow : Prop :=
  ∀ r : RegIdx,
    decodeOpcode (0x0#4 ++ r) = .nop r ∧ decodeOpcode (0x1#4 ++ r) = .loadImm r ∧
    decodeOpcode (0x2#4 ++ r) = .loadMem r ∧ decodeOpcode (0x3#4 ++ r) = .storeMem r ∧
    decodeOpcode (0x4#4 ++ r) = .swapMove r ∧ decodeOpcode (0x5#4 ++ r) = .shl r ∧
    decodeOpcode (0x6#4 ++ r) = .notOp r ∧ decodeOpcode (0x7#4 ++ r) = .orOp r ∧
    decodeOpcode (0x8#4 ++ r) = .andOp r ∧ decodeOpcode (0x9#4 ++ r) = .xorOp r ∧
    decodeOpcode (0xA#4 ++ r) = .add r ∧ decodeOpcode (0xB#4 ++ r) = .sub r ∧
    decodeOpcode (0xC#4 ++ r) = .cmp r ∧ decodeOpcode (0xD#4 ++ r) = .skipIfOdd r ∧
    decodeOpcode (0xE#4 ++ r) = .jump r ∧ decodeOpcode (0xF#4 ++ r) = .unrecognized r

/-- Bytes of 95_test_vectors.md section 2.1, one for each family, decode to the instruction the table names. -/
def Obligations.WrittenBytesDecodeAsTabled : Prop :=
  decodeOpcode 0b00000000#8 = .nop 0#4 ∧ decodeOpcode 0b00011010#8 = .loadImm 10#4 ∧
  decodeOpcode 0b00101111#8 = .loadMem 15#4 ∧ decodeOpcode 0b01011100#8 = .shl 12#4 ∧
  decodeOpcode 0b10100000#8 = .add 0#4 ∧ decodeOpcode 0b11011011#8 = .skipIfOdd 11#4 ∧
  decodeOpcode 0b11100100#8 = .jump 4#4 ∧ decodeOpcode 0b11110000#8 = .unrecognized 0#4 ∧
  decodeFetched (.imm 6#4) 0b11110000#8 = .data 6#4 0xF0#8 ∧
  decodeFetched (.imm 6#4) 0b00010000#8 = .data 6#4 0x10#8

/-- R50: the unrecognized bytes are exactly 0xF0 to 0xFF, each of them halts, and the selector changes nothing. -/
def Obligations.UnrecognizedBytesAreF0ToFF : Prop :=
  (∀ b : Byte, (∃ r, decodeOpcode b = .unrecognized r) ↔ 0xF0 ≤ b.toNat) ∧
  (∀ (r : RegIdx) (s : State), exec (.unrecognized r) s = .next { s with halted := true })

/-- R49: the sixteen bytes 0x00 to 0x0F are NOP and none of them changes any state. -/
def Obligations.LowBytesAreAllNop : Prop :=
  (∀ b : Byte, (∃ r, decodeOpcode b = .nop r) ↔ b.toNat ≤ 0x0F) ∧
  (∀ (b : Byte) (s : State), b.toNat ≤ 0x0F → exec (decodeOpcode b) s = .next s) ∧
  decodeOpcode Config.blankByte = .nop 0#4

/-- Decode and encode agree on whole instructions and on opcode bytes: every well-formed instruction, with every
register and every immediate, is read back with the bytes after it, its length is the one its opcode announces, and
every opcode byte is written back (R44 to R46, R51, R52). -/
def Obligations.DecodeInvertsEncode : Prop :=
  (∀ (i : Instr) (d : Byte) (rest : List Byte), i.wf = true →
    decode (encode i d ++ rest) = .ok (i, dataBytes i d, rest) ∧ (encode i d).length = instrLength i) ∧
  (∀ (r : RegIdx) (d : Byte), dataBytes (.loadImm r) d = [d]) ∧
  (∀ (i : Instr) (d : Byte), (∀ r, i ≠ .loadImm r) → dataBytes i d = []) ∧
  (∀ b : Byte, encodeOpcode (decodeOpcode b) = b) ∧
  (∀ i : Instr, decodeOpcode (encodeOpcode i) = i)

/-- A byte sequence is refused only for want of bytes: it is empty, or it is a lone LOAD-IMM opcode byte (R51, R52). -/
def Obligations.DecodeRefusesOnlyMissingBytes : Prop :=
  ∀ bytes : List Byte,
    (decode bytes = .error .noOpcodeByte ↔ bytes = []) ∧
    (∀ r, decode bytes = .error (.noDataByte r) ↔ bytes = [0x1#4 ++ r]) ∧
    (2 ≤ bytes.length → ∃ i data rest, decode bytes = .ok (i, data, rest) ∧
      bytes = encodeOpcode i :: data ++ rest)

/-- Assembling what a disassembler prints keeps the behaviour of every instruction, and its bytes unless the selector is
one the instruction ignores (R56, R57; the abstract assembly lines are the model's form, log 10). -/
def Obligations.DisassemblyKeepsBehaviour : Prop :=
  ∀ (i : Instr) (d : Byte),
    ∃ j, decode (assembleLine (disassemble i d)) = .ok (j, dataBytes i d, []) ∧
      (∀ s : State, exec j s = exec i s) ∧
      ((∀ r, i ≠ .nop r) → (∀ r, i ≠ .unrecognized r) → assembleLine (disassemble i d) = encode i d) ∧
      ((∃ r, i = .nop r) → assembleLine (disassemble i d) = [0x00#8]) ∧
      ((∃ r, i = .unrecognized r) → assembleLine (disassemble i d) = [0xF0#8])

/-! ### The step -/

/-- A step runs the decoded instruction: the byte at `pc` is fetched, `pc` advances modulo 2^16, and the step is `exec`
of what the byte decodes to (R53). -/
def Obligations.StepRunsDecodedInstruction : Prop :=
  ∀ (s : State) (i : Instr), s.Fetchable → s.pend = .op → decodeOpcode (s.progRead s.pc) = i →
    step s = exec i { s with pc := s.pc + 1#16 }

/-- The checks of one step in their order (R84). That "no step" is answered as a next state equal to the state itself is the
model's form (log 3). -/
def Obligations.StepChecksInOrder : Prop :=
  ∀ s : State,
    ((s.halted = true ∨ s.faulted = true) → step s = .next s) ∧
    (s.halted = false → s.faulted = false → admitted s.policy s.pc = false →
      step s = .fault (.fetchOutOfRange { s with faulted := true, faultCause := 1#2 })) ∧
    (s.Fetchable → ∀ r, s.pend = .imm r → ∃ t, step s = .next t ∧ t.halted = false ∧ t.faulted = false ∧
      t.pend = .op ∧ t.reg r = s.progRead s.pc) ∧
    (s.Fetchable → s.pend = .op → 0xF0 ≤ (s.progRead s.pc).toNat →
      step s = .next { s with pc := s.pc + 1#16, halted := true }) ∧
    (s.Fetchable → s.pend = .op → (s.progRead s.pc).toNat < 0xF0 →
      ∃ t, step s = .next t ∧ exec (decodeOpcode (s.progRead s.pc)) { s with pc := s.pc + 1#16 } = .next t ∧
        t.halted = false ∧ t.faulted = false)

/-- A step of a block that may step ends in exactly one of three ways: completed with `cont = 1`, completed by halt with
`cont = 0`, or faulted (R79, R54), and so it is never refused. `cont` is read from the latches (log 4). -/
def Obligations.StepEndsInOneOfThreeWays : Prop :=
  ∀ s : State, s.stopped = false →
    (∃ t, step s = .next t ∧ t.cont = true) ∨
    (∃ t, step s = .next t ∧ t.halted = true ∧ t.faulted = false ∧ t.cont = false) ∨
    (∃ t, step s = .fault (.fetchOutOfRange t) ∧ t.faulted = true ∧ t.halted = false ∧ t.cont = false)

/-- R43: which fetches are admitted. -/
def Obligations.FetchAdmissionFollowsPolicy : Prop :=
  (∀ p : PcWord, admitted .unsigned p = true) ∧
  (∀ p : PcWord, admitted .signedFault p = true ↔ p[15] = false) ∧
  (∀ p : PcWord, admitted .signedFault p = true ↔ 0 ≤ signed16 p) ∧
  (∀ p : PcWord, signed16 p = p.toInt) ∧
  (∀ s : State, s.stopped = false → admitted s.policy s.pc = false → ∀ m : Memory,
    ∃ t, step { s with prog := m } = .fault (.fetchOutOfRange t) ∧ t.prog = m ∧
      ∀ n : Memory, step { s with prog := n } = .fault (.fetchOutOfRange { t with prog := n }))

/-- R80: the effect of FetchOutOfRange, whatever `pend` is, and that it is never raised under `Unsigned`. -/
def Obligations.FetchOutOfRangeIsPrecise : Prop :=
  (∀ s : State, s.stopped = false → s.policy = .signedFault → s.pc[15] = true →
    ∃ t, step s = .fault (.fetchOutOfRange t) ∧ t.faulted = true ∧ t.faultCause = 1#2 ∧ t.cont = false ∧
      t.pc = s.pc ∧ (∀ i, t.reg i = s.reg i) ∧ t.pend = s.pend ∧ t.halted = s.halted ∧ t.policy = s.policy ∧
      SameMemories s t) ∧
  (∀ s : State, s.policy = .unsigned → ∀ f, step s ≠ .fault f)

/-- A step that halts or faults leaves a state that no step leaves and only reset does (R85). The forms of "no step" and of
the fault outcome are the model's (logs 3 and 5). -/
def Obligations.HaltAndFaultLatchUntilReset : Prop :=
  (∀ s t : State, step s = .fault (.fetchOutOfRange t) → t.stopped = true) ∧
  (∀ (s : State) (r : RegIdx), s.Fetchable → s.pend = .op → decodeOpcode (s.progRead s.pc) = .unrecognized r →
    (stateAfter s).stopped = true) ∧
  (∀ s : State, s.stopped = true → step s = .next s ∧
    ∀ inp : Inputs, clockEdge inp s = if inp.rst then resetWith inp.launch else s)

/-- The program counter of every step (R17, R18, R74, R75): only SKIP-IF-ODD and JUMP move it other than by one. -/
def Obligations.StepMovesPcModulo65536 : Prop :=
  ∀ s t : State, s.Fetchable → step s = .next t →
    (∀ r, s.pend = .imm r → t.pc.toNat = (s.pc.toNat + 1) % 65536) ∧
    (s.pend = .op → ∀ i, decodeOpcode (s.progRead s.pc) = i →
      (∀ r, i = .skipIfOdd r → t.pc.toNat = (s.pc.toNat + 1 + (s.reg r).toNat % 2) % 65536) ∧
      (∀ r, i = .jump r → t.pc.toNat = 256 * (s.reg 4#4).toNat + (s.reg r).toNat) ∧
      ((∀ r, i ≠ .skipIfOdd r) → (∀ r, i ≠ .jump r) → t.pc.toNat = (s.pc.toNat + 1) % 65536))

/-! ### Results, frames and completion, one statement an instruction -/

/-- R59. -/
def Obligations.NopChangesNothing : Prop :=
  ∀ (s : State) (sel : RegIdx),
    decodeOpcode (0x0#4 ++ sel) = .nop sel ∧
    ∃ t, exec (.nop sel) s = .next t ∧ OnlyRegs [] s t ∧ t.cont = s.cont

/-- R60: the opcode step, the data step, and a data fetch that is not admitted. -/
def Obligations.LoadImmTakesItsTwoSteps : Prop :=
  ∀ d : RegIdx,
    decodeOpcode (0x1#4 ++ d) = .loadImm d ∧
    (∀ s : State, ∃ t, exec (.loadImm d) s = .next t ∧ t.pend = .imm d ∧ SameRegsExcept [] s t ∧ t.pc = s.pc ∧
      t.halted = s.halted ∧ t.faulted = s.faulted ∧ t.faultCause = s.faultCause ∧ t.policy = s.policy ∧
      SameMemories s t) ∧
    (∀ s : State, s.Fetchable → s.pend = .imm d → ∃ t, step s = .next t ∧ t.reg d = s.progRead s.pc ∧
      t.pend = .op ∧ SameRegsExcept [d] s t ∧ t.pc = s.pc + 1#16 ∧ t.halted = s.halted ∧ t.faulted = s.faulted ∧
      t.faultCause = s.faultCause ∧ t.policy = s.policy ∧ SameMemories s t) ∧
    (∀ s : State, s.stopped = false → admitted s.policy s.pc = false → s.pend = .imm d →
      ∃ t, step s = .fault (.fetchOutOfRange t) ∧ t.pend = .imm d ∧ t.reg d = s.reg d)

/-- R61. -/
def Obligations.LoadMemReadsAddressedByte : Prop :=
  ∀ (s : State) (d : RegIdx),
    decodeOpcode (0x2#4 ++ d) = .loadMem d ∧
    ∃ t, exec (.loadMem d) s = .next t ∧ t.reg d = s.memRead (s.reg 2#4) ∧ OnlyRegs [d] s t

/-- R62: the address stored to is `x[2]`; every other byte of the Working Memory and all of the Program Store read as
before. -/
def Obligations.StoreMemWritesAddressedByte : Prop :=
  ∀ (s : State) (r : RegIdx),
    decodeOpcode (0x3#4 ++ r) = .storeMem r ∧
    ∃ t, exec (.storeMem r) s = .next t ∧
      (∀ a : Byte, s.ramAddr = a → t.memRead a = s.reg r ∧ ∀ b : Byte, b ≠ a → t.memRead b = s.memRead b) ∧
      s.ramAddr = s.reg 2#4 ∧ (∀ a : PcWord, t.progRead a = s.progRead a) ∧ SameRegsExcept [] s t ∧ t.pc = s.pc ∧
      SameControl s t

/-- R63: the exchange, that two of the same restore the registers, and the three-step exchange of r0 and `x[a]`. -/
def Obligations.SwapMoveExchangesRegisters : Prop :=
  (∀ (s : State) (d : RegIdx),
    decodeOpcode (0x4#4 ++ d) = .swapMove d ∧
    ∃ t, exec (.swapMove d) s = .next t ∧ t.reg 3#4 = s.reg d ∧ t.reg d = s.reg 3#4 ∧ OnlyRegs [3#4, d] s t) ∧
  (∀ (s : State) (d : RegIdx), execAll [.swapMove d, .swapMove d] s = .next s) ∧
  (∀ (s : State) (a : RegIdx), a ≠ 0#4 → a ≠ 3#4 → ∃ t, execAll [.swapMove a, .swapMove 0#4, .swapMove a] s = .next t ∧
    t.reg 0#4 = s.reg a ∧ t.reg a = s.reg 0#4 ∧ t.reg 3#4 = s.reg 3#4 ∧ OnlyRegs [0#4, a] s t)

/-- R64. -/
def Obligations.ShlDoublesModulo256 : Prop :=
  ∀ (s : State) (d : RegIdx),
    decodeOpcode (0x5#4 ++ d) = .shl d ∧
    ∃ t, exec (.shl d) s = .next t ∧ (t.reg d).toNat = 2 * (s.reg d).toNat % 256 ∧
      (t.reg d).getLsbD 0 = false ∧ OnlyRegs [d] s t

/-- "eight SHL of any value give 0x00" (R64), with nothing else changed. -/
def Obligations.EightShiftsClearRegister : Prop :=
  ∀ (s : State) (d : RegIdx), ∃ t, execAll (List.replicate 8 (.shl d)) s = .next t ∧
    t.reg d = 0x00#8 ∧ OnlyRegs [d] s t

/-- R65. -/
def Obligations.NotComplementsEveryBit : Prop :=
  ∀ (s : State) (d : RegIdx),
    decodeOpcode (0x6#4 ++ d) = .notOp d ∧
    ∃ t, exec (.notOp d) s = .next t ∧ (∀ k < 8, (t.reg d).getLsbD k = !(s.reg d).getLsbD k) ∧ OnlyRegs [d] s t

/-- R66: both operands are read before the write, so the clause holds for `d` 0 and 1 too. -/
def Obligations.OrJoinsEveryBit : Prop :=
  ∀ (s : State) (d : RegIdx),
    decodeOpcode (0x7#4 ++ d) = .orOp d ∧
    ∃ t, exec (.orOp d) s = .next t ∧
      (∀ k < 8, (t.reg d).getLsbD k = ((s.reg 0#4).getLsbD k || (s.reg 1#4).getLsbD k)) ∧ OnlyRegs [d] s t

/-- R67. -/
def Obligations.AndMeetsEveryBit : Prop :=
  ∀ (s : State) (d : RegIdx),
    decodeOpcode (0x8#4 ++ d) = .andOp d ∧
    ∃ t, exec (.andOp d) s = .next t ∧
      (∀ k < 8, (t.reg d).getLsbD k = ((s.reg 0#4).getLsbD k && (s.reg 1#4).getLsbD k)) ∧ OnlyRegs [d] s t

/-- R68. -/
def Obligations.XorComparesEveryBit : Prop :=
  ∀ (s : State) (d : RegIdx),
    decodeOpcode (0x9#4 ++ d) = .xorOp d ∧
    ∃ t, exec (.xorOp d) s = .next t ∧
      (∀ k < 8, (t.reg d).getLsbD k = ((s.reg 0#4).getLsbD k ^^ (s.reg 1#4).getLsbD k)) ∧ OnlyRegs [d] s t

/-- R69. -/
def Obligations.AddWritesSumModulo256 : Prop :=
  ∀ (s : State) (d : RegIdx),
    decodeOpcode (0xA#4 ++ d) = .add d ∧
    ∃ t, exec (.add d) s = .next t ∧
      (t.reg d).toNat = ((s.reg 0#4).toNat + (s.reg 1#4).toNat) % 256 ∧ OnlyRegs [d] s t

/-- R70. -/
def Obligations.SubWritesDifferenceModulo256 : Prop :=
  ∀ (s : State) (d : RegIdx),
    decodeOpcode (0xB#4 ++ d) = .sub d ∧
    ∃ t, exec (.sub d) s = .next t ∧
      ((t.reg d).toNat : Int) = ((s.reg 0#4).toNat - (s.reg 1#4).toNat : Int) % 256 ∧ OnlyRegs [d] s t

/-- R71: set only, never cleared. -/
def Obligations.CmpSetsOneOrLeavesAlone : Prop :=
  ∀ (s : State) (d : RegIdx),
    decodeOpcode (0xC#4 ++ d) = .cmp d ∧
    ∃ t, exec (.cmp d) s = .next t ∧ OnlyRegs [d] s t ∧
      ((s.reg 1#4).toNat < (s.reg 0#4).toNat → t.reg d = 0x01#8) ∧
      ((s.reg 0#4).toNat ≤ (s.reg 1#4).toNat → t.reg d = s.reg d)

/-- R74: the skip is exactly one byte, modulo 2^16. -/
def Obligations.SkipIfOddMovesPcByOne : Prop :=
  ∀ (s : State) (r : RegIdx),
    decodeOpcode (0xD#4 ++ r) = .skipIfOdd r ∧
    ∃ t, exec (.skipIfOdd r) s = .next t ∧
      ((s.reg r).toNat % 2 = 1 → t.pc.toNat = (s.pc.toNat + 1) % 65536) ∧
      ((s.reg r).toNat % 2 = 0 → t.pc = s.pc) ∧
      SameRegsExcept [] s t ∧ SameControl s t ∧ SameMemories s t

/-- R75: the target is `(x[4] << 8) | x[s]`, whatever it is. -/
def Obligations.JumpSetsPcFromTwoRegisters : Prop :=
  ∀ (s : State) (r : RegIdx),
    decodeOpcode (0xE#4 ++ r) = .jump r ∧
    ∃ t, exec (.jump r) s = .next t ∧ t.pc.toNat = 256 * (s.reg 4#4).toNat + (s.reg r).toNat ∧
      SameRegsExcept [] s t ∧ SameControl s t ∧ SameMemories s t

/-- The halt is a normal next state, after which the block performs no further step (R76). That "no further step" is a next
state equal to the state is the model's form (log 3), and `cont` is the model's reading of the latches (log 4). -/
def Obligations.UnrecognizedOpcodeHalts : Prop :=
  ∀ (s : State) (sel : RegIdx),
    decodeOpcode (0xF#4 ++ sel) = .unrecognized sel ∧
    ∃ t, exec (.unrecognized sel) s = .next t ∧ t.halted = true ∧ t.cont = false ∧ t.pc = s.pc ∧
      SameRegsExcept [] s t ∧ t.pend = s.pend ∧ t.faulted = s.faulted ∧ t.faultCause = s.faultCause ∧
      t.policy = s.policy ∧ SameMemories s t ∧ step t = .next t

/-! ### Whole-machine rules -/

/-- Which instructions write what (R15, R21, R23, R41, R77): `pc` beyond the fetch only SKIP-IF-ODD and JUMP, the
pending-load state only LOAD-IMM, the Working Memory only STORE-MEM, the halt latch only the unrecognized opcode, and
nothing the fault latch, the Program Store or the policy. -/
def Obligations.OnlyNamedInstructionsWrite : Prop :=
  ∀ (i : Instr) (s t : State), exec i s = .next t →
    ((∀ r, i ≠ .skipIfOdd r) → (∀ r, i ≠ .jump r) → t.pc = s.pc) ∧
    ((∀ r, i ≠ .loadImm r) → t.pend = s.pend) ∧
    ((∀ r, i ≠ .storeMem r) → t.dmem = s.dmem) ∧
    ((∀ r, i ≠ .unrecognized r) → t.halted = s.halted) ∧
    t.faulted = s.faulted ∧ t.faultCause = s.faultCause ∧ t.prog = s.prog ∧ t.policy = s.policy

/-- A Working Memory byte changes only in a STORE-MEM step at that address, and then it is the register stored (R38, R32,
R30). -/
def Obligations.OnlyStoreStepChangesWorkingMemory : Prop :=
  ∀ (s t : State) (a : Byte), step s = .next t → t.memRead a ≠ s.memRead a →
    s.Fetchable ∧ s.pend = .op ∧
      ∃ r, decodeOpcode (s.progRead s.pc) = .storeMem r ∧ s.reg 2#4 = a ∧ t.memRead a = s.reg r

/-- A LOAD-MEM step at `a` returns the byte of the last STORE-MEM step at `a` before it, and 0x00 when there has been none
since reset, whatever steps run between, stores at other addresses and LOAD-IMM's data steps among them; and a fetch always
sees the image (R38, R102). -/
def Obligations.LoadReturnsLastStoredByte : Prop :=
  (∀ (s t u : State) (r d : RegIdx) (k : Nat), s.Fetchable → s.pend = .op →
    decodeOpcode (s.progRead s.pc) = .storeMem r → step s = .next t →
    core.run k t = .next u → NoStoreTo (s.reg 2#4) k t →
    u.Fetchable → u.pend = .op → decodeOpcode (u.progRead u.pc) = .loadMem d → u.reg 2#4 = s.reg 2#4 →
    ∃ v, step u = .next v ∧ v.reg d = s.reg r) ∧
  (∀ (p : LaunchParams) (u : State) (d : RegIdx) (k : Nat), core.run k (resetWith p) = .next u →
    NoStoreTo (u.reg 2#4) k (resetWith p) →
    u.Fetchable → u.pend = .op → decodeOpcode (u.progRead u.pc) = .loadMem d →
    ∃ v, step u = .next v ∧ v.reg d = 0x00#8) ∧
  (∀ (p : LaunchParams) (u : State) (k : Nat) (a : PcWord), core.run k (resetWith p) = .next u →
    u.progRead a = (p.image.bytes[a.toNat]?).getD 0x00#8)

/-- R41: no step, completed or faulted, changes a byte of the Program Store. -/
def Obligations.ProgramStoreIsImmutable : Prop :=
  ∀ s t : State, (step s = .next t ∨ step s = .fault (.fetchOutOfRange t)) →
    t.prog = s.prog ∧ t.policy = s.policy ∧ ∀ a : PcWord, t.progRead a = s.progRead a

/-- A program cannot read the Program Store as data nor fetch from the Working Memory (R27): another Program Store changes
no instruction's effect, and another Working Memory changes no fetch. -/
def Obligations.AddressSpacesAreDisjoint : Prop :=
  (∀ (i : Instr) (s t : State) (m : Memory), exec i s = .next t →
    exec i { s with prog := m } = .next { t with prog := m }) ∧
  (∀ (s : State) (m : Memory), fetch { s with dmem := m } =
    match fetch s with
    | .noStep => .noStep
    | .outOfRange => .outOfRange
    | .byte f t => .byte f { t with dmem := m })

/-- Memory reads the last byte written at an address and every other address as before (R32). -/
def Obligations.WorkingMemoryReadsLastWrite : Prop :=
  ∀ (s : State) (a b v : Byte),
    (s.memWrite a v).memRead a = v ∧ (b ≠ a → (s.memWrite a v).memRead b = s.memRead b) ∧
    (s.memWrite a v).pc = s.pc ∧ (s.memWrite a v).x = s.x ∧
    (s.dmem.wf Config.dmemSize → (s.memWrite a v).dmem.wf Config.dmemSize)

/-- The integer laws of the ALU (R72): ADD and SUB are also two's complement, SHL is doubling, CMP's test is unsigned and
the logic operations act on each bit. -/
def Obligations.AluObeysIntegerLaws : Prop :=
  ∀ a b : Byte,
    (aluAdd a b).toNat = (a.toNat + b.toNat) % 256 ∧ (aluAdd a b).toInt = (a.toInt + b.toInt).bmod 256 ∧
    ((aluSub a b).toNat : Int) = ((a.toNat : Int) - b.toNat) % 256 ∧ (aluSub a b).toInt = (a.toInt - b.toInt).bmod 256 ∧
    (aluShl a).toNat = 2 * a.toNat % 256 ∧ (gtUnsigned a b = true ↔ b.toNat < a.toNat) ∧
    ∀ k < 8, (aluOr a b).getLsbD k = (a.getLsbD k || b.getLsbD k) ∧
      (aluAnd a b).getLsbD k = (a.getLsbD k && b.getLsbD k) ∧
      (aluXor a b).getLsbD k = (a.getLsbD k ^^ b.getLsbD k) ∧ (aluNot a).getLsbD k = !a.getLsbD k

/-- The invariant holds at reset (R28, R22). -/
def Obligations.ResetMeetsInvariant : Prop := State.reset.Inv

/-- The invariant holds where any run starts (R94, R97). -/
def Obligations.EveryLaunchMeetsInvariant : Prop := ∀ p : LaunchParams, (resetWith p).Inv

/-- Every step keeps the invariant, in the state it completes with and in the state a fault leaves (R22, R25, R26, R76,
R80); so does every clock edge (R96). -/
def Obligations.StepKeepsInvariant : Prop :=
  (∀ s t : State, s.Inv → (step s = .next t ∨ step s = .fault (.fetchOutOfRange t)) → t.Inv) ∧
  (∀ (inp : Inputs) (s : State), s.Inv → (clockEdge inp s).Inv)

/-! ### Hazards -/

/-- R103 and R55: on a byte reached with `pend = Op` the step decodes, whatever the byte was meant as; a byte 0xF0 to 0xFF
reached this way halts, and the same byte reached with `pend = Imm(r)` is stored as data and does not. -/
def Obligations.PathDecidesOpcodeOrData : Prop :=
  ∀ (s : State) (r : RegIdx), s.Fetchable → 0xF0 ≤ (s.progRead s.pc).toNat →
    (∃ t, step { s with pend := .op } = .next t ∧ t.halted = true) ∧
    (∃ t, step { s with pend := .imm r } = .next t ∧ t.halted = false ∧ t.reg r = s.progRead s.pc)

/-- R104: a skip before a LOAD-IMM jumps over its opcode byte only, and the data byte is executed as an instruction. -/
def Obligations.SkipLandsOnImmediateByte : Prop :=
  ∀ (s : State) (q r : RegIdx), s.Fetchable → s.pend = .op → s.progRead s.pc = 0xD#4 ++ q →
    s.progRead (s.pc + 1#16) = 0x1#4 ++ r → (s.reg q).toNat % 2 = 1 → admitted s.policy (s.pc + 2#16) = true →
    ∃ t, step s = .next t ∧ t.pc = s.pc + 2#16 ∧ t.pend = .op ∧ SameRegsExcept [] s t ∧ SameControl s t ∧
      SameMemories s t ∧
      step t = exec (decodeOpcode (s.progRead (s.pc + 2#16))) { t with pc := s.pc + 3#16 }

/-- R105: the zero padding runs as NOPs; under `SignedFault` the step at 0x8000 faults, under `Unsigned` `pc` wraps to
0x0000; registers and Working Memory are as they were. -/
def Obligations.PaddingRunsToTheEndOfTheStore : Prop :=
  ∀ s : State, s.halted = false → s.faulted = false → s.pend = .op →
    (s.policy = .signedFault → s.pc.toNat < 0x8000 →
      (∀ a : PcWord, s.pc.toNat ≤ a.toNat → a.toNat < 0x8000 → s.progRead a = 0x00#8) →
      core.run (0x8000 - s.pc.toNat) s = .next { s with pc := 0x8000#16 } ∧
      core.run (0x8000 - s.pc.toNat + 1) s =
        .fault (.fetchOutOfRange { s with pc := 0x8000#16, faulted := true, faultCause := 1#2 })) ∧
    (s.policy = .unsigned → (∀ a : PcWord, s.pc.toNat ≤ a.toNat → s.progRead a = 0x00#8) →
      core.run (0x10000 - s.pc.toNat) s = .next { s with pc := 0x0000#16 })

/-- R107: a JUMP with `x[4] >= 0x80` completes with `cont = 1`, and the next step faults. -/
def Obligations.JumpToUpperHalfFaultsNext : Prop :=
  ∀ (s : State) (r : RegIdx), s.Fetchable → s.policy = .signedFault → s.pend = .op →
    s.progRead s.pc = 0xE#4 ++ r → 0x80 ≤ (s.reg 4#4).toNat →
    ∃ t, step s = .next t ∧ t.cont = true ∧ 0x8000 ≤ t.pc.toNat ∧
      ∃ u, step t = .fault (.fetchOutOfRange u) ∧ u.pc = t.pc ∧ u.faultCause = 1#2

/-- R108: the last fetchable address under `SignedFault` is 0x7FFF. -/
def Obligations.LastFetchableAddressIs7FFF : Prop :=
  (∀ p : PcWord, admitted .signedFault p = true ↔ p.toNat ≤ 0x7FFF) ∧
  (∀ (s : State) (r : RegIdx), s.Fetchable → s.policy = .signedFault → s.pend = .op → s.pc = 0x7FFF#16 →
    s.progRead s.pc = 0x1#4 ++ r → ∃ t u, step s = .next t ∧ t.pend = .imm r ∧
      step t = .fault (.fetchOutOfRange u) ∧ u.pc = 0x8000#16 ∧ u.pend = .imm r) ∧
  (∀ (s : State) (r : RegIdx), s.Fetchable → s.policy = .signedFault → s.pend = .op → s.pc = 0x7FFE#16 →
    s.progRead s.pc = 0xD#4 ++ r → (s.reg r).toNat % 2 = 1 → ∃ t u, step s = .next t ∧ t.cont = true ∧
      step t = .fault (.fetchOutOfRange u) ∧ u.pc = 0x8000#16)

/-! ### Reset, host and ports -/

/-- R94: an edge with `rst = 1` puts every piece of state at its reset value, from any state. -/
def Obligations.ResetPutsEveryReset : Prop :=
  ∀ (inp : Inputs) (s : State), inp.rst = true →
    (∀ i, (clockEdge inp s).reg i = 0x00#8) ∧ (clockEdge inp s).pc = 0x0000#16 ∧ (clockEdge inp s).pend = .op ∧
    (∀ a : Byte, (clockEdge inp s).memRead a = 0x00#8) ∧ (clockEdge inp s).halted = false ∧
    (clockEdge inp s).faulted = false ∧ (clockEdge inp s).faultCause = 0#2 ∧
    (∀ a : PcWord, (clockEdge inp s).progRead a = (inp.launch.image.bytes[a.toNat]?).getD 0x00#8)

/-- R97: an image of at most 65,536 bytes is loadable and stands in the Program Store followed by zeros until the next
reset; a longer one fails with `CapacityError`. -/
def Obligations.ImageLoadsUpToCapacity : Prop :=
  (∀ bytes : List Byte, bytes.length ≤ 65536 → ∃ im, imageOfBytes bytes = .ok im ∧ im.bytes = bytes ∧
    ∀ (policy : PcFetchPolicy) (a : PcWord),
      (resetWith ⟨im, policy⟩).progRead a = (bytes[a.toNat]?).getD 0x00#8) ∧
  (∀ bytes : List Byte, 65536 < bytes.length → imageOfBytes bytes = .error .capacityError) ∧
  (∀ (inp : Inputs) (s : State) (a : PcWord), inp.rst = false → (clockEdge inp s).progRead a = s.progRead a)

/-- R98: which characters are hexadecimal digits and what they stand for, which image texts the host's loader accepts,
and with which error it fails. That a text which is both malformed and too long fails with `DecodeError` is the model's
reading (log 9). -/
def Obligations.ImageTextDecodesByDigitPairs : Prop :=
  (∀ c : Char, isHexDigit c = true ↔ c ∈ "0123456789abcdefABCDEF".toList) ∧
  (∀ n < 10, hexDigit (Char.ofNat (48 + n)) = some (BitVec.ofNat 4 n)) ∧
  (∀ n < 6, hexDigit (Char.ofNat (97 + n)) = some (BitVec.ofNat 4 (10 + n)) ∧
    hexDigit (Char.ofNat (65 + n)) = some (BitVec.ofNat 4 (10 + n))) ∧
  (∀ text : List Char, hexTextWf text = true ↔ (∀ c ∈ text, isHexDigit c = true) ∧ text.length % 2 = 0) ∧
  (∀ text : List Char, hexTextWf text = false → loadText text = .error .decodeError) ∧
  (∀ text : List Char, hexTextWf text = true → text.length ≤ 131072 →
    ∃ im, loadText text = .ok im ∧ im.bytes.length = text.length / 2 ∧
      ∀ (k : Nat) (h l : Char) (vh vl : BitVec 4), text[2 * k]? = some h → text[2 * k + 1]? = some l →
        hexDigit h = some vh → hexDigit l = some vl → im.bytes[k]? = some (vh ++ vl)) ∧
  (∀ text : List Char, hexTextWf text = true → 131072 < text.length → loadText text = .error .capacityError)

/-- R96: what one rising clock edge does. -/
def Obligations.ClockEdgeResetsStepsOrHolds : Prop :=
  ∀ (inp : Inputs) (s : State),
    (inp.rst = true → clockEdge inp s = resetWith inp.launch) ∧
    (inp.rst = false → inp.stepEn = true → s.halted = false → s.faulted = false →
      (∃ t, step s = .next t ∧ clockEdge inp s = t) ∨
      (∃ t, step s = .fault (.fetchOutOfRange t) ∧ clockEdge inp s = t)) ∧
    (inp.rst = false → (inp.stepEn = false ∨ s.halted = true ∨ s.faulted = true) → clockEdge inp s = s)

/-- R92: the observation port, on any integer index in the model and on the index port of the block. -/
def Obligations.ObservationReadsRegisterOrZero : Prop :=
  (∀ (s : State) (r : RegIdx), obs s r.toNat = s.reg r) ∧
  (∀ (s : State) (i : Int), i < 0 ∨ 15 < i → obs s i = 0x00#8) ∧
  (∀ (inp : Inputs) (s : State), (outputs inp s).obsData = obs s inp.obsIndex.toNat) ∧
  (∀ (inp : Inputs) (s : State) (r : RegIdx), inp.obsIndex.toNat = r.toNat → (outputs inp s).obsData = s.reg r) ∧
  (∀ (inp : Inputs) (s : State), 16 ≤ inp.obsIndex.toNat → (outputs inp s).obsData = 0x00#8) ∧
  (∀ (inp : Inputs) (s : State) (k : BitVec 8), clockEdge { inp with obsIndex := k } s = clockEdge inp s)

/-- R54: the continuation signal. The level of the port after the last step is the model's reading (log 4). -/
def Obligations.ContinuationSignalDropsOnHaltOrFault : Prop :=
  (∀ p : LaunchParams, (resetWith p).cont = true) ∧
  (∀ (inp : Inputs) (s : State), s.Fetchable → inp.rst = false → inp.stepEn = true →
    ((outputs inp (clockEdge inp s)).cont = false ↔ s.pend = .op ∧ 0xF0 ≤ (s.progRead s.pc).toNat)) ∧
  (∀ s t : State, step s = .fault (.fetchOutOfRange t) → t.cont = false)

/-- The store port (R30): `dmem_we` is 1 exactly in a STORE-MEM step; the byte then driven is the register that the
instruction names, and it is what the Working Memory holds at `dmem_addr` after the edge; with `dmem_we = 0` and no reset
every byte is as before. That no value is driven while `dmem_we = 0`, and that both are read at the edge of the step, is the
model's choice (log 11). -/
def Obligations.StorePortAgreesWithMemory : Prop :=
  ∀ (inp : Inputs) (s : State),
    (outputs inp s).imemAddr = s.pc ∧ (outputs inp s).dmemAddr = s.reg 2#4 ∧
    ((outputs inp s).dmemWe = true ↔ inp.rst = false ∧ inp.stepEn = true ∧ s.Fetchable ∧ s.pend = .op ∧
      ∃ r, decodeOpcode (s.progRead s.pc) = .storeMem r) ∧
    ((outputs inp s).dmemWe = true → ∀ r, decodeOpcode (s.progRead s.pc) = .storeMem r →
      (outputs inp s).dmemWdata = some (s.reg r) ∧
      (clockEdge inp s).memRead (outputs inp s).dmemAddr = s.reg r) ∧
    ((outputs inp s).dmemWe = false → (outputs inp s).dmemWdata = none) ∧
    (inp.rst = false → (outputs inp s).dmemWe = false → ∀ a, (clockEdge inp s).memRead a = s.memRead a)

/-- The status ports (R10, R22): they show the latches and the cause code; a step sets `halted` exactly when it decodes an
unrecognized opcode and `faulted` exactly when its fetch is not admitted, with cause 1; a set latch stays until reset, which
clears all three. That a latched state goes on at the ports after a fault outcome is the model's form (log 5). -/
def Obligations.StatusPortsShowHaltAndFault : Prop :=
  ∀ (inp now : Inputs) (s : State),
    ((outputs inp s).halted = s.halted ∧ (outputs inp s).faulted = s.faulted ∧
      (outputs inp s).faultCause = s.faultCause) ∧
    (inp.rst = false → inp.stepEn = true → s.halted = false → s.faulted = false →
      ((outputs now (clockEdge inp s)).halted = true ↔
        admitted s.policy s.pc = true ∧ s.pend = .op ∧ 0xF0 ≤ (s.progRead s.pc).toNat) ∧
      ((outputs now (clockEdge inp s)).faulted = true ↔ admitted s.policy s.pc = false) ∧
      (admitted s.policy s.pc = false → (outputs now (clockEdge inp s)).faultCause = 1#2) ∧
      (admitted s.policy s.pc = true → (outputs now (clockEdge inp s)).faultCause = s.faultCause)) ∧
    (inp.rst = false → s.halted = true ∨ s.faulted = true →
      (outputs now (clockEdge inp s)).halted = s.halted ∧ (outputs now (clockEdge inp s)).faulted = s.faulted ∧
      (outputs now (clockEdge inp s)).faultCause = s.faultCause) ∧
    (inp.rst = true → (outputs now (clockEdge inp s)).halted = false ∧
      (outputs now (clockEdge inp s)).faulted = false ∧ (outputs now (clockEdge inp s)).faultCause = 0#2)

/-- How a run ends (R101), from any state of the invariant that may step: HALTED and FAULTED are final whatever more the
host allows, and STOPPED after `k` says only that `k` steps ran. `core.run k` and `drive` agree past the halt because a
stopped block answers its own state (log 3, the model's form), a FAULTED end is the state the fault outcome carries (log 5),
and `cont` is the model's reading of the latches (log 4). -/
def Obligations.RunEndsHaltedStoppedOrFaulted : Prop :=
  ∀ (s : State) (k : Nat), s.Inv → s.stopped = false →
    match drive k s with
    | .halted t => t.halted = true ∧ t.faulted = false ∧ t.pend = .op ∧ core.run k s = .next t ∧
        ∀ m, drive (k + m) s = .halted t
    | .faulted t => t.faulted = true ∧ t.halted = false ∧ t.faultCause = 1#2 ∧ t.policy = .signedFault ∧
        t.pc[15] = true ∧ core.run k s = .fault (.fetchOutOfRange t) ∧ ∀ m, drive (k + m) s = .faulted t
    | .stopped t => t.cont = true ∧ core.run k s = .next t

/-- The model's loading of one instruction (log 2): the very next step fetches and runs the instruction that the table word
decodes to, with registers and Working Memory as they were. -/
def Obligations.PlacedInstructionRunsNext : Prop :=
  ∀ (s : State) (nbits w : Nat) (i : Instr), decodeTableWord nbits w = some i →
    ∃ u, s.withFetchWord nbits w = u ∧ u.Fetchable ∧ u.pend = .op ∧ decodeOpcode (u.progRead u.pc) = i ∧
      step u = exec i { u with pc := u.pc + 1#16 } ∧ (∀ r, u.reg r = s.reg r) ∧
      (∀ a, u.memRead a = s.memRead a) ∧ (admitted s.policy s.pc = true → u.pc = s.pc)
end

