-- ==== Sys2Proof/Laws/State.lean ====
section
/-! SUPPORT. One lemma per field per update of State, and what the accessors read after each update. -/

namespace Sys2Proof.Machine

variable (s : State)

/-! ### setReg -/

@[simp] theorem State.x_setReg (i : RegIdx) (v : Byte) : (s.setReg i v).x = s.x.set i.toNat v i.isLt := rfl
@[simp] theorem State.pc_setReg (i : RegIdx) (v : Byte) : (s.setReg i v).pc = s.pc := rfl
@[simp] theorem State.pend_setReg (i : RegIdx) (v : Byte) : (s.setReg i v).pend = s.pend := rfl
@[simp] theorem State.dmem_setReg (i : RegIdx) (v : Byte) : (s.setReg i v).dmem = s.dmem := rfl
@[simp] theorem State.halted_setReg (i : RegIdx) (v : Byte) : (s.setReg i v).halted = s.halted := rfl
@[simp] theorem State.faulted_setReg (i : RegIdx) (v : Byte) : (s.setReg i v).faulted = s.faulted := rfl
@[simp] theorem State.faultCause_setReg (i : RegIdx) (v : Byte) : (s.setReg i v).faultCause = s.faultCause := rfl
@[simp] theorem State.prog_setReg (i : RegIdx) (v : Byte) : (s.setReg i v).prog = s.prog := rfl
@[simp] theorem State.policy_setReg (i : RegIdx) (v : Byte) : (s.setReg i v).policy = s.policy := rfl

@[simp] theorem State.memRead_setReg (i : RegIdx) (v : Byte) (b : Byte) : (s.setReg i v).memRead b = s.memRead b := rfl
@[simp] theorem State.progRead_setReg (i : RegIdx) (v : Byte) (b : PcWord) : (s.setReg i v).progRead b = s.progRead b := rfl

/-! ### setPc -/

@[simp] theorem State.x_setPc (t : PcWord) : (s.setPc t).x = s.x := rfl
@[simp] theorem State.pc_setPc (t : PcWord) : (s.setPc t).pc = t := rfl
@[simp] theorem State.pend_setPc (t : PcWord) : (s.setPc t).pend = s.pend := rfl
@[simp] theorem State.dmem_setPc (t : PcWord) : (s.setPc t).dmem = s.dmem := rfl
@[simp] theorem State.halted_setPc (t : PcWord) : (s.setPc t).halted = s.halted := rfl
@[simp] theorem State.faulted_setPc (t : PcWord) : (s.setPc t).faulted = s.faulted := rfl
@[simp] theorem State.faultCause_setPc (t : PcWord) : (s.setPc t).faultCause = s.faultCause := rfl
@[simp] theorem State.prog_setPc (t : PcWord) : (s.setPc t).prog = s.prog := rfl
@[simp] theorem State.policy_setPc (t : PcWord) : (s.setPc t).policy = s.policy := rfl

@[simp] theorem State.reg_setPc (t : PcWord) (j : RegIdx) : (s.setPc t).reg j = s.reg j := rfl
@[simp] theorem State.memRead_setPc (t : PcWord) (b : Byte) : (s.setPc t).memRead b = s.memRead b := rfl
@[simp] theorem State.progRead_setPc (t : PcWord) (b : PcWord) : (s.setPc t).progRead b = s.progRead b := rfl

/-! ### advancePc -/

@[simp] theorem State.x_advancePc : (s.advancePc).x = s.x := rfl
@[simp] theorem State.pc_advancePc : (s.advancePc).pc = s.pc + 1#16 := rfl
@[simp] theorem State.pend_advancePc : (s.advancePc).pend = s.pend := rfl
@[simp] theorem State.dmem_advancePc : (s.advancePc).dmem = s.dmem := rfl
@[simp] theorem State.halted_advancePc : (s.advancePc).halted = s.halted := rfl
@[simp] theorem State.faulted_advancePc : (s.advancePc).faulted = s.faulted := rfl
@[simp] theorem State.faultCause_advancePc : (s.advancePc).faultCause = s.faultCause := rfl
@[simp] theorem State.prog_advancePc : (s.advancePc).prog = s.prog := rfl
@[simp] theorem State.policy_advancePc : (s.advancePc).policy = s.policy := rfl

@[simp] theorem State.reg_advancePc (j : RegIdx) : (s.advancePc).reg j = s.reg j := rfl
@[simp] theorem State.memRead_advancePc (b : Byte) : (s.advancePc).memRead b = s.memRead b := rfl
@[simp] theorem State.progRead_advancePc (b : PcWord) : (s.advancePc).progRead b = s.progRead b := rfl

/-! ### setPend -/

@[simp] theorem State.x_setPend (p : Pend) : (s.setPend p).x = s.x := rfl
@[simp] theorem State.pc_setPend (p : Pend) : (s.setPend p).pc = s.pc := rfl
@[simp] theorem State.pend_setPend (p : Pend) : (s.setPend p).pend = p := rfl
@[simp] theorem State.dmem_setPend (p : Pend) : (s.setPend p).dmem = s.dmem := rfl
@[simp] theorem State.halted_setPend (p : Pend) : (s.setPend p).halted = s.halted := rfl
@[simp] theorem State.faulted_setPend (p : Pend) : (s.setPend p).faulted = s.faulted := rfl
@[simp] theorem State.faultCause_setPend (p : Pend) : (s.setPend p).faultCause = s.faultCause := rfl
@[simp] theorem State.prog_setPend (p : Pend) : (s.setPend p).prog = s.prog := rfl
@[simp] theorem State.policy_setPend (p : Pend) : (s.setPend p).policy = s.policy := rfl

@[simp] theorem State.reg_setPend (p : Pend) (j : RegIdx) : (s.setPend p).reg j = s.reg j := rfl
@[simp] theorem State.memRead_setPend (p : Pend) (b : Byte) : (s.setPend p).memRead b = s.memRead b := rfl
@[simp] theorem State.progRead_setPend (p : Pend) (b : PcWord) : (s.setPend p).progRead b = s.progRead b := rfl

/-! ### memWrite -/

@[simp] theorem State.x_memWrite (a v : Byte) : (s.memWrite a v).x = s.x := rfl
@[simp] theorem State.pc_memWrite (a v : Byte) : (s.memWrite a v).pc = s.pc := rfl
@[simp] theorem State.pend_memWrite (a v : Byte) : (s.memWrite a v).pend = s.pend := rfl
@[simp] theorem State.dmem_memWrite (a v : Byte) : (s.memWrite a v).dmem = s.dmem.write a.toNat v := rfl
@[simp] theorem State.halted_memWrite (a v : Byte) : (s.memWrite a v).halted = s.halted := rfl
@[simp] theorem State.faulted_memWrite (a v : Byte) : (s.memWrite a v).faulted = s.faulted := rfl
@[simp] theorem State.faultCause_memWrite (a v : Byte) : (s.memWrite a v).faultCause = s.faultCause := rfl
@[simp] theorem State.prog_memWrite (a v : Byte) : (s.memWrite a v).prog = s.prog := rfl
@[simp] theorem State.policy_memWrite (a v : Byte) : (s.memWrite a v).policy = s.policy := rfl

@[simp] theorem State.reg_memWrite (a v : Byte) (j : RegIdx) : (s.memWrite a v).reg j = s.reg j := rfl
@[simp] theorem State.progRead_memWrite (a v : Byte) (b : PcWord) : (s.memWrite a v).progRead b = s.progRead b := rfl

/-! ### setHalted -/

@[simp] theorem State.x_setHalted : (s.setHalted).x = s.x := rfl
@[simp] theorem State.pc_setHalted : (s.setHalted).pc = s.pc := rfl
@[simp] theorem State.pend_setHalted : (s.setHalted).pend = s.pend := rfl
@[simp] theorem State.dmem_setHalted : (s.setHalted).dmem = s.dmem := rfl
@[simp] theorem State.halted_setHalted : (s.setHalted).halted = true := rfl
@[simp] theorem State.faulted_setHalted : (s.setHalted).faulted = s.faulted := rfl
@[simp] theorem State.faultCause_setHalted : (s.setHalted).faultCause = s.faultCause := rfl
@[simp] theorem State.prog_setHalted : (s.setHalted).prog = s.prog := rfl
@[simp] theorem State.policy_setHalted : (s.setHalted).policy = s.policy := rfl

@[simp] theorem State.reg_setHalted (j : RegIdx) : (s.setHalted).reg j = s.reg j := rfl
@[simp] theorem State.memRead_setHalted (b : Byte) : (s.setHalted).memRead b = s.memRead b := rfl
@[simp] theorem State.progRead_setHalted (b : PcWord) : (s.setHalted).progRead b = s.progRead b := rfl

/-! ### latchFault -/

@[simp] theorem State.x_latchFault (c : BitVec 2) : (s.latchFault c).x = s.x := rfl
@[simp] theorem State.pc_latchFault (c : BitVec 2) : (s.latchFault c).pc = s.pc := rfl
@[simp] theorem State.pend_latchFault (c : BitVec 2) : (s.latchFault c).pend = s.pend := rfl
@[simp] theorem State.dmem_latchFault (c : BitVec 2) : (s.latchFault c).dmem = s.dmem := rfl
@[simp] theorem State.halted_latchFault (c : BitVec 2) : (s.latchFault c).halted = s.halted := rfl
@[simp] theorem State.faulted_latchFault (c : BitVec 2) : (s.latchFault c).faulted = true := rfl
@[simp] theorem State.faultCause_latchFault (c : BitVec 2) : (s.latchFault c).faultCause = c := rfl
@[simp] theorem State.prog_latchFault (c : BitVec 2) : (s.latchFault c).prog = s.prog := rfl
@[simp] theorem State.policy_latchFault (c : BitVec 2) : (s.latchFault c).policy = s.policy := rfl

@[simp] theorem State.reg_latchFault (c : BitVec 2) (j : RegIdx) : (s.latchFault c).reg j = s.reg j := rfl
@[simp] theorem State.memRead_latchFault (c : BitVec 2) (b : Byte) : (s.latchFault c).memRead b = s.memRead b := rfl
@[simp] theorem State.progRead_latchFault (c : BitVec 2) (b : PcWord) : (s.latchFault c).progRead b = s.progRead b := rfl

/-! ### Registers -/

@[simp] theorem State.reg_setReg_same (i : RegIdx) (v : Byte) : (s.setReg i v).reg i = v := by
  simp [State.reg, State.setReg]

theorem State.reg_setReg_ne {i j : RegIdx} (v : Byte) (h : j ≠ i) : (s.setReg i v).reg j = s.reg j := by
  have hn : i.toNat ≠ j.toNat := fun e => h (BitVec.eq_of_toNat_eq e.symm)
  simp [State.reg, State.setReg, Vector.getElem_set_ne, hn]

theorem State.reg_setReg (i j : RegIdx) (v : Byte) : (s.setReg i v).reg j = if j = i then v else s.reg j := by
  split
  case isTrue h => subst h; simp
  case isFalse h => exact s.reg_setReg_ne v h

/-- Two states with the same registers, read one by one, have the same Register File. -/
theorem State.x_ext {s t : State} (h : ∀ i : RegIdx, t.reg i = s.reg i) : t.x = s.x := by
  apply Vector.ext
  intro k hk
  have := h (BitVec.ofNat 4 k)
  have hm : k % 16 = k := Nat.mod_eq_of_lt hk
  simpa [State.reg, hm] using this

end Sys2Proof.Machine
end

