-- ==== Sys2Proof/Laws/Memory.lean ====
section
/-! SUPPORT. The laws of memory: read after write, the canonical form, and what a loaded image reads as. -/

namespace Sys2Proof.Machine

theorem Memory.read_cons (b : Nat) (v : Byte) (m : Memory) (a : Nat) :
    Memory.read ((b, v) :: m) a = if b = a then v else Memory.read m a := rfl

/-- A memory that does not list `a` reads blank there. -/
theorem Memory.read_absent (m : Memory) (a : Nat) (h : ∀ c ∈ m, c.1 ≠ a) : Memory.read m a = Config.blankByte := by
  induction m with
  | nil => rfl
  | cons c m ih =>
    have hc : c.1 ≠ a := h c (by simp)
    simp [Memory.read, hc]
    exact ih fun d hd => h d (by simp [hd])

theorem Memory.read_append (m n : Memory) (a : Nat) (h : ∀ c ∈ m, c.1 ≠ a) :
    Memory.read (m ++ n) a = Memory.read n a := by
  induction m with
  | nil => rfl
  | cons c m ih =>
    have hc : c.1 ≠ a := h c (by simp)
    simp only [List.cons_append, Memory.read, hc, if_false]
    exact ih fun d hd => h d (by simp [hd])

theorem Memory.read_append_absent (m n : Memory) (a : Nat) (h : ∀ c ∈ n, c.1 ≠ a) :
    Memory.read (m ++ n) a = Memory.read m a := by
  induction m with
  | nil => simpa [Memory.read] using Memory.read_absent n a h
  | cons c m ih =>
    by_cases hc : c.1 = a
    · simp [Memory.read, hc]
    · simp [Memory.read, hc, ih]

theorem Memory.read_filter (m : Memory) (p : Host.Cell → Bool) (a : Nat) (h : ∀ v, p (a, v) = true) :
    Memory.read (m.filter p) a = Memory.read m a := by
  induction m with
  | nil => rfl
  | cons c m ih =>
    obtain ⟨b, v⟩ := c
    by_cases hb : b = a
    · subst hb
      simp [h v, Memory.read]
    · by_cases hp : p (b, v) = true
      · simp [hp, Memory.read, hb, ih]
      · simp [hp, Memory.read, hb, ih]

/-- What a write leaves readable. -/
theorem Memory.read_write (m : Memory) (a b : Nat) (v : Byte) :
    Memory.read (Memory.write m a v) b = if b = a then v else Memory.read m b := by
  have hmid : ∀ c ∈ (if v = Config.blankByte then ([] : Memory) else [(a, v)]), c.1 = a := by
    intro c hc
    split at hc <;> simp at hc
    simp [hc]
  have hlo : ∀ c ∈ m.filter (fun c => decide (c.1 < a)), c.1 < a := by
    intro c hc
    simpa using (List.mem_filter.mp hc).2
  have hhi : ∀ c ∈ m.filter (fun c => decide (a < c.1)), a < c.1 := by
    intro c hc
    simpa using (List.mem_filter.mp hc).2
  unfold Memory.write
  rcases Nat.lt_trichotomy b a with h | h | h
  · rw [List.append_assoc, Memory.read_append_absent, Memory.read_filter]
    · simp [Nat.ne_of_lt h]
    · simp [h]
    · intro c hc
      rcases List.mem_append.mp hc with hc | hc
      · have := hmid c hc; omega
      · have := hhi c hc; omega
  · subst h
    rw [Memory.read_append_absent, Memory.read_append]
    · by_cases hv : v = Config.blankByte
      · simp [hv, Memory.read]
      · simp [hv, Memory.read]
    · intro c hc; have := hlo c hc; omega
    · intro c hc; have := hhi c hc; omega
  · rw [Memory.read_append, Memory.read_filter]
    · simp [Nat.ne_of_gt h]
    · simp [h]
    · intro c hc
      rcases List.mem_append.mp hc with hc | hc
      · have := hlo c hc; omega
      · have := hmid c hc; omega

/-- A write inside the memory keeps its canonical form. -/
theorem Memory.write_wf {size : Nat} {m : Memory} {a : Nat} {v : Byte} (hm : m.wf size) (ha : a < size) :
    (Memory.write m a v).wf size := by
  obtain ⟨hs, hb⟩ := hm
  refine ⟨?_, ?_⟩
  · unfold Memory.write
    rw [List.append_assoc, List.pairwise_append]
    refine ⟨hs.filter _, ?_, ?_⟩
    · rw [List.pairwise_append]
      refine ⟨?_, hs.filter _, ?_⟩
      · split <;> simp
      · intro c hc d hd
        have hd' : a < d.1 := by simpa using (List.mem_filter.mp hd).2
        split at hc <;> simp at hc
        simpa [hc] using hd'
    · intro c hc d hd
      have hc' : c.1 < a := by simpa using (List.mem_filter.mp hc).2
      rcases List.mem_append.mp hd with hd | hd
      · split at hd <;> simp at hd
        simpa [hd] using hc'
      · have hd' : a < d.1 := by simpa using (List.mem_filter.mp hd).2
        omega
  · intro c hc
    simp only [Memory.write, List.mem_append] at hc
    rcases hc with (hc | hc) | hc
    · exact hb c (List.mem_filter.mp hc).1
    · split at hc
      · simp at hc
      case isFalse hv =>
        simp at hc
        subst hc
        exact ⟨ha, hv⟩
    · exact hb c (List.mem_filter.mp hc).1

theorem Memory.ofBytesFrom_ge (bytes : List Byte) (base : Nat) :
    ∀ c ∈ Memory.ofBytesFrom base bytes, base ≤ c.1 ∧ c.1 < base + bytes.length ∧ c.2 ≠ Config.blankByte := by
  induction bytes generalizing base with
  | nil => simp [Memory.ofBytesFrom]
  | cons b rest ih =>
    intro c hc
    simp only [Memory.ofBytesFrom, List.mem_append] at hc
    rcases hc with hc | hc
    · split at hc
      · simp at hc
      case isFalse hv =>
        simp at hc
        subst hc
        exact ⟨Nat.le_refl _, by simp, hv⟩
    · obtain ⟨h1, h2, h3⟩ := ih (base + 1) c hc
      refine ⟨by omega, ?_, h3⟩
      simp only [List.length_cons]
      omega

theorem Memory.ofBytesFrom_sorted (bytes : List Byte) (base : Nat) :
    (Memory.ofBytesFrom base bytes).Pairwise (fun c d => c.1 < d.1) := by
  induction bytes generalizing base with
  | nil => simp [Memory.ofBytesFrom]
  | cons b rest ih =>
    simp only [Memory.ofBytesFrom]
    rw [List.pairwise_append]
    refine ⟨by split <;> simp, ih _, ?_⟩
    intro c hc d hd
    have := (Memory.ofBytesFrom_ge rest (base + 1) d hd).1
    split at hc <;> simp at hc
    simp [hc]
    omega

/-- The Program Store content of a fitting image is in canonical form. -/
theorem Memory.ofBytes_wf {bytes : List Byte} {size : Nat} (h : bytes.length ≤ size) :
    (Memory.ofBytes bytes).wf size := by
  refine ⟨Memory.ofBytesFrom_sorted bytes 0, fun c hc => ?_⟩
  have := Memory.ofBytesFrom_ge bytes 0 c hc
  exact ⟨by omega, this.2.2⟩

/-- Writing keeps `State.memRead`'s law. -/
theorem State.memRead_memWrite (s : State) (a b v : Byte) :
    (s.memWrite a v).memRead b = if b = a then v else s.memRead b := by
  simp only [State.memRead, State.dmem_memWrite, Memory.read_write]
  by_cases h : b = a
  · simp [h]
  · have : b.toNat ≠ a.toNat := fun e => h (BitVec.eq_of_toNat_eq e)
    simp [h, this]

end Sys2Proof.Machine
end

