-- ==== Sys2Proof/Laws/Ops.lean ====
section
/-! SUPPORT. One spec lemma for each shared operation: the ALU, the conditions, fetching, faulting, placing bytes. -/

namespace Sys2Proof.Machine

/-! ### Bytes -/

theorem trunc8_toNat (v : Int) : ((trunc8 v).toNat : Int) = v % 256 := by
  simp only [trunc8, BitVec.toNat_ofInt]
  omega

theorem aluAdd_eq (a b : Byte) : aluAdd a b = a + b := by
  apply BitVec.eq_of_toNat_eq
  have := trunc8_toNat ((a.toNat : Int) + b.toNat)
  simp only [aluAdd, BitVec.toNat_add]
  omega

theorem aluSub_eq (a b : Byte) : aluSub a b = a - b := by
  apply BitVec.eq_of_toNat_eq
  have := trunc8_toNat ((a.toNat : Int) - b.toNat)
  simp only [aluSub, BitVec.toNat_sub]
  omega

theorem aluShl_toNat (a : Byte) : (aluShl a).toNat = 2 * a.toNat % 256 := by
  have := trunc8_toNat ((a.toNat : Int) * 2)
  simp only [aluShl]
  omega

theorem gtUnsigned_iff (a b : Byte) : gtUnsigned a b = true ↔ b.toNat < a.toNat := by simp [gtUnsigned]

theorem isOdd_iff (v : Byte) : isOdd v = true ↔ v.toNat % 2 = 1 := by
  revert v
  decide

theorem concatBytes_toNat (h l : Byte) : (concatBytes h l).toNat = 256 * h.toNat + l.toNat := by
  have hl : l.toNat < 2 ^ 8 := l.isLt
  simp only [concatBytes, BitVec.toNat_append]
  rw [← Nat.shiftLeft_add_eq_or_of_lt hl, Nat.shiftLeft_eq]
  omega

/-! ### Fetch -/

/-- A stopped block finds no step. -/
theorem fetch_stopped {s : State} (h : s.stopped = true) : fetch s = .noStep := by simp [fetch, h]

theorem fetch_unadmitted {s : State} (h : s.stopped = false) (ha : admitted s.policy s.pc = false) :
    fetch s = .outOfRange := by
  simp [fetch, h, ha]

theorem fetch_admitted {s : State} (h : s.stopped = false) (ha : admitted s.policy s.pc = true) :
    fetch s = .byte (decodeFetched s.pend (s.progRead s.pc)) s.advancePc := by
  simp [fetch, h, ha]

/-- Everything the start of a step can find. -/
theorem fetch_cases (s : State) :
    (s.stopped = true ∧ fetch s = .noStep) ∨
    (s.stopped = false ∧ admitted s.policy s.pc = false ∧ fetch s = .outOfRange) ∨
    (s.stopped = false ∧ admitted s.policy s.pc = true ∧
      fetch s = .byte (decodeFetched s.pend (s.progRead s.pc)) s.advancePc) := by
  cases h : s.stopped
  · cases ha : admitted s.policy s.pc
    · exact .inr (.inl ⟨rfl, rfl, fetch_unadmitted h ha⟩)
    · exact .inr (.inr ⟨rfl, rfl, fetch_admitted h ha⟩)
  · exact .inl ⟨rfl, fetch_stopped h⟩

/-- The fault is one outcome: the status fields written, nothing else. -/
theorem raiseFetchOutOfRange_eq (s : State) :
    raiseFetchOutOfRange s = .fault (.fetchOutOfRange { s with faulted := true, faultCause := 1#2 }) := rfl

/-! ### Placing an instruction -/

@[simp] theorem readyToFetch_x (s : State) : s.readyToFetch.x = s.x := rfl
@[simp] theorem readyToFetch_dmem (s : State) : s.readyToFetch.dmem = s.dmem := rfl
@[simp] theorem readyToFetch_prog (s : State) : s.readyToFetch.prog = s.prog := rfl
@[simp] theorem readyToFetch_policy (s : State) : s.readyToFetch.policy = s.policy := rfl
@[simp] theorem readyToFetch_pend (s : State) : s.readyToFetch.pend = .op := rfl
@[simp] theorem readyToFetch_stopped (s : State) : s.readyToFetch.stopped = false := rfl

theorem readyToFetch_admitted (s : State) : admitted s.readyToFetch.policy s.readyToFetch.pc = true := by
  show admitted s.policy (if admitted s.policy s.pc then s.pc else Config.resetVector) = true
  split
  case isTrue h => exact h
  case isFalse => cases s.policy <;> decide

/-- Placing bytes changes the Program Store only. -/
theorem placeBytes_frame (bytes : List Byte) (s : State) (a : PcWord) :
    ∃ m, s.placeBytes a bytes = { s with prog := m } := by
  induction bytes generalizing s a with
  | nil => exact ⟨s.prog, rfl⟩
  | cons b rest ih =>
    obtain ⟨m, hm⟩ := ih { s with prog := s.prog.write a.toNat b } (a + 1#16)
    exact ⟨m, hm⟩

/-- Placing bytes keeps the Program Store's canonical form. -/
theorem placeBytes_wf (bytes : List Byte) (s : State) (a : PcWord) (h : s.prog.wf Config.progSize) :
    (s.placeBytes a bytes).prog.wf Config.progSize := by
  induction bytes generalizing s a with
  | nil => exact h
  | cons b rest ih => exact ih _ _ (Memory.write_wf h a.isLt)

end Sys2Proof.Machine
end

