-- ==== Sys2Proof/Laws/Exec.lean ====
section
/-! SUPPORT. What each meaning answers, and what no meaning does. -/

namespace Sys2Proof.Machine

/-- A meaning always answers a next state: it is the fetch that faults, never an instruction (R82). -/
theorem exec_answers_next (i : Instr) (s : State) : ∃ t, exec i s = .next t := by
  cases i with
  | cmp r => simp only [exec, execCmp]; split <;> exact ⟨_, rfl⟩
  | skipIfOdd r => simp only [exec, execSkipIfOdd]; split <;> exact ⟨_, rfl⟩
  | _ => exact ⟨_, rfl⟩

/-- CMP answers one of its two next states. -/
theorem execCmp_answers (r : RegIdx) (s : State) :
    (gtUnsigned s.op1 s.op2 = true ∧ execCmp r s = .next (s.setReg r cmpTrue)) ∨
    (gtUnsigned s.op1 s.op2 = false ∧ execCmp r s = .next s) := by
  by_cases h : gtUnsigned s.op1 s.op2 = true
  · exact .inl ⟨h, if_pos h⟩
  · exact .inr ⟨by simpa using h, if_neg h⟩

/-- SKIP-IF-ODD answers one of its two next states. -/
theorem execSkipIfOdd_answers (r : RegIdx) (s : State) :
    (isOdd (s.reg r) = true ∧ execSkipIfOdd r s = .next s.advancePc) ∨
    (isOdd (s.reg r) = false ∧ execSkipIfOdd r s = .next s) := by
  by_cases h : isOdd (s.reg r) = true
  · exact .inl ⟨h, if_pos h⟩
  · exact .inr ⟨by simpa using h, if_neg h⟩

theorem exec_ne_fault (i : Instr) (s : State) (f : Fault) : exec i s ≠ .fault f := by
  obtain ⟨t, h⟩ := exec_answers_next i s
  simp [h]

theorem exec_ne_refused (i : Instr) (s : State) (r : Refusal) : exec i s ≠ .refused r := by
  obtain ⟨t, h⟩ := exec_answers_next i s
  simp [h]

/-- Every next state of a meaning is the start state under one of six updates. -/
theorem exec_next_cases {i : Instr} {s t : State} (h : exec i s = .next t) :
    t = s ∨
    (∃ r, i = .loadImm r ∧ t = s.setPend (.imm r)) ∨
    (∃ r, i = .storeMem r ∧ t = s.memWrite s.ramAddr (s.reg r)) ∨
    (∃ r v, t = s.setReg r v) ∨
    (∃ r, i = .swapMove r ∧ t = (s.setReg movtReg (s.reg r)).setReg r s.moveTarget) ∨
    (∃ r, i = .skipIfOdd r ∧ isOdd (s.reg r) = true ∧ t = s.advancePc) ∨
    (∃ r, i = .jump r ∧ t = s.setPc (s.jumpTarget r)) ∨
    (∃ r, i = .unrecognized r ∧ t = s.setHalted) := by
  cases i with
  | cmp r =>
    simp only [exec, execCmp] at h
    split at h <;> cases h
    · exact .inr (.inr (.inr (.inl ⟨r, _, rfl⟩)))
    · exact .inl rfl
  | skipIfOdd r =>
    simp only [exec, execSkipIfOdd] at h
    split at h
    case isTrue ho => cases h; exact .inr (.inr (.inr (.inr (.inr (.inl ⟨r, rfl, ho, rfl⟩)))))
    case isFalse => cases h; exact .inl rfl
  | nop r => cases h; exact .inl rfl
  | loadImm r => cases h; exact .inr (.inl ⟨r, rfl, rfl⟩)
  | storeMem r => cases h; exact .inr (.inr (.inl ⟨r, rfl, rfl⟩))
  | swapMove r => cases h; exact .inr (.inr (.inr (.inr (.inl ⟨r, rfl, rfl⟩))))
  | jump r => cases h; exact .inr (.inr (.inr (.inr (.inr (.inr (.inl ⟨r, rfl, rfl⟩))))))
  | unrecognized r => cases h; exact .inr (.inr (.inr (.inr (.inr (.inr (.inr ⟨r, rfl, rfl⟩))))))
  | loadMem r => cases h; exact .inr (.inr (.inr (.inl ⟨r, _, rfl⟩)))
  | shl r => cases h; exact .inr (.inr (.inr (.inl ⟨r, _, rfl⟩)))
  | notOp r => cases h; exact .inr (.inr (.inr (.inl ⟨r, _, rfl⟩)))
  | orOp r => cases h; exact .inr (.inr (.inr (.inl ⟨r, _, rfl⟩)))
  | andOp r => cases h; exact .inr (.inr (.inr (.inl ⟨r, _, rfl⟩)))
  | xorOp r => cases h; exact .inr (.inr (.inr (.inl ⟨r, _, rfl⟩)))
  | add r => cases h; exact .inr (.inr (.inr (.inl ⟨r, _, rfl⟩)))
  | sub r => cases h; exact .inr (.inr (.inr (.inl ⟨r, _, rfl⟩)))

/-- Every memory a meaning leaves is the one it found, or that one under one write. -/
theorem exec_keeps_dmem_wf {i : Instr} {s t : State} (h : exec i s = .next t) (hw : s.dmem.wf Config.dmemSize) :
    t.dmem.wf Config.dmemSize := by
  rcases exec_next_cases h with rfl | ⟨_, _, rfl⟩ | ⟨_, _, rfl⟩ | ⟨_, _, rfl⟩ | ⟨_, _, rfl⟩ | ⟨_, _, _, rfl⟩ |
    ⟨_, _, rfl⟩ | ⟨_, _, rfl⟩
  case inr.inr.inl => exact Memory.write_wf hw s.ramAddr.isLt
  all_goals exact hw

end Sys2Proof.Machine
end

