-- ==== Sys2Proof/Laws/PerInstr.lean ====
section
/-! SUPPORT. Facts about every instruction as syntax, one lemma per constructor. -/

namespace Sys2Proof.Laws.OpcodeByteFields

/-- The opcode byte of an instruction has its opcode in the high nibble and its selector in the low one (R45). -/
def Statement (i : Instr) : Prop :=
  highNibble (encodeOpcode i) = opcodeOf i ∧ lowNibble (encodeOpcode i) = i.sel ∧ i.wf = true

/-- The two fields of a Format O byte, and the bound a 4-bit selector carries. -/
theorem fields (o r : BitVec 4) :
    highNibble (o ++ r) = o ∧ lowNibble (o ++ r) = r ∧ decide (r.toNat < Config.regCount) = true := by
  revert o r
  decide

theorem nop (r : RegIdx) : Statement (.nop r) := fields _ r
theorem loadImm (r : RegIdx) : Statement (.loadImm r) := fields _ r
theorem loadMem (r : RegIdx) : Statement (.loadMem r) := fields _ r
theorem storeMem (r : RegIdx) : Statement (.storeMem r) := fields _ r
theorem swapMove (r : RegIdx) : Statement (.swapMove r) := fields _ r
theorem shl (r : RegIdx) : Statement (.shl r) := fields _ r
theorem notOp (r : RegIdx) : Statement (.notOp r) := fields _ r
theorem orOp (r : RegIdx) : Statement (.orOp r) := fields _ r
theorem andOp (r : RegIdx) : Statement (.andOp r) := fields _ r
theorem xorOp (r : RegIdx) : Statement (.xorOp r) := fields _ r
theorem add (r : RegIdx) : Statement (.add r) := fields _ r
theorem sub (r : RegIdx) : Statement (.sub r) := fields _ r
theorem cmp (r : RegIdx) : Statement (.cmp r) := fields _ r
theorem skipIfOdd (r : RegIdx) : Statement (.skipIfOdd r) := fields _ r
theorem jump (r : RegIdx) : Statement (.jump r) := fields _ r
theorem unrecognized (r : RegIdx) : Statement (.unrecognized r) := fields _ r

end Sys2Proof.Laws.OpcodeByteFields
end

