-- ==== Sys2Proof/Laws/Step.lean ====
section
/-! SUPPORT. Once and for all what one step can answer, in terms of the fetch. -/

namespace Sys2Proof.Machine

/-- Every next state of a step: no step, a data byte stored, or an instruction run. -/
theorem step_next_cases {s t : State} (h : step s = .next t) :
    (s.stopped = true ∧ t = s) ∨
    (s.stopped = false ∧ admitted s.policy s.pc = true ∧ ∃ r, s.pend = .imm r ∧
      t = (s.advancePc.setReg r (s.progRead s.pc)).setPend .op) ∨
    (s.stopped = false ∧ admitted s.policy s.pc = true ∧ s.pend = .op ∧
      exec (decodeOpcode (s.progRead s.pc)) s.advancePc = .next t) := by
  rcases fetch_cases s with ⟨hs, hf⟩ | ⟨hs, ha, hf⟩ | ⟨hs, ha, hf⟩
  · simp only [step, hf] at h
    exact .inl ⟨hs, (Host.Outcome.next.inj h).symm⟩
  · simp [step, hf, raiseFetchOutOfRange] at h
  · cases hp : s.pend with
    | op =>
      simp only [step, hf, hp, decodeFetched] at h
      exact .inr (.inr ⟨hs, ha, rfl, h⟩)
    | imm r =>
      simp only [step, hf, hp, decodeFetched, execDataByte] at h
      exact .inr (.inl ⟨hs, ha, r, rfl, (Host.Outcome.next.inj h).symm⟩)

/-- Every fault of a step: the fetch was not admitted, and the state left is the one before with its status latched. -/
theorem step_fault_cases {s : State} {f : Fault} (h : step s = .fault f) :
    s.stopped = false ∧ admitted s.policy s.pc = false ∧ f = .fetchOutOfRange (s.latchFault causeFetchOutOfRange) := by
  rcases fetch_cases s with ⟨hs, hf⟩ | ⟨hs, ha, hf⟩ | ⟨hs, ha, hf⟩
  · simp [step, hf] at h
  · simp only [step, hf, raiseFetchOutOfRange] at h
    exact ⟨hs, ha, (Host.Outcome.fault.inj h).symm⟩
  · cases hp : s.pend with
    | op =>
      simp only [step, hf, hp, decodeFetched] at h
      exact absurd h (exec_ne_fault _ _ _)
    | imm r => simp [step, hf, hp, decodeFetched, execDataByte] at h

/-- No step is refused. -/
theorem step_ne_refused (s : State) (r : Refusal) : step s ≠ .refused r := by
  intro h
  rcases fetch_cases s with ⟨hs, hf⟩ | ⟨hs, ha, hf⟩ | ⟨hs, ha, hf⟩
  · simp [step, hf] at h
  · simp [step, hf, raiseFetchOutOfRange] at h
  · cases hp : s.pend with
    | op =>
      simp only [step, hf, hp, decodeFetched] at h
      exact absurd h (exec_ne_refused _ _ _)
    | imm r => simp [step, hf, hp, decodeFetched, execDataByte] at h

theorem State.stopped_eq_false {s : State} : s.stopped = false ↔ s.halted = false ∧ s.faulted = false := by
  simp [State.stopped]

theorem State.Fetchable.not_stopped {s : State} (h : s.Fetchable) : s.stopped = false :=
  State.stopped_eq_false.2 ⟨h.not_halted, h.not_faulted⟩

end Sys2Proof.Machine
end

