-- ==== Sys2Proof/Laws/Run.lean ====
section
/-! SUPPORT. Running several steps: one equation for each outcome of the first. -/

namespace Sys2Proof.Machine

theorem run_zero (s : State) : core.run 0 s = .next s := rfl

theorem run_succ_of_next {s t : State} (k : Nat) (h : step s = .next t) : core.run (k + 1) s = core.run k t := by
  have h' : core.step s = .next t := h
  show Host.Core.run core (k + 1) s = _
  simp only [Host.Core.run]
  rw [h']

theorem run_succ_of_fault {s : State} {f : Fault} (k : Nat) (h : step s = .fault f) : core.run (k + 1) s = .fault f := by
  have h' : core.step s = .fault f := h
  show Host.Core.run core (k + 1) s = _
  simp only [Host.Core.run]
  rw [h']

/-- A stopped block stays where it is, however many steps are asked of it. -/
theorem run_of_stopped {s : State} (h : s.stopped = true) (k : Nat) : core.run k s = .next s := by
  induction k with
  | zero => rfl
  | succ k ih =>
    have hs : step s = .next s := by simp [step, fetch_stopped h]
    rw [run_succ_of_next k hs, ih]

theorem drive_of_stopped {s : State} (h : s.stopped = true) (k : Nat) : drive k s = runEndOf s := by
  cases k <;> simp [drive, h]

theorem drive_succ_of_next {s t : State} (k : Nat) (h : s.stopped = false) (hs : step s = .next t) :
    drive (k + 1) s = drive k t := by
  simp [drive, h, hs]

end Sys2Proof.Machine
end

