-- ==== Sys2Proof/Tests/Slice0.lean ====
section
/-! SUPPORT. The model's own tests. Expected results are those of 95_test_vectors.md and of the rules' examples; the last part gives one named witness for the hypotheses of each statement. -/

namespace Sys2Proof.Tests

open Sys2Proof Sys2Proof.Machine

/-! ### Helpers -/

/-- Reset with `bytes` as the program image. -/
def img (bytes : List Byte) : State := State.launch (Memory.ofBytes bytes) .signedFault

/-- Reset with the byte `b` at address `p` and the program counter there. -/
def atPc (p : PcWord) (b : Byte) : State := { img [] with pc := p, prog := (Memory.ofBytes []).write p.toNat b }

/-- A field of the next state of a step, if it answers one. -/
def after {α : Type} (f : State → α) (s : State) : Option α :=
  match step s with
  | .next t => some (f t)
  | _ => none

/-! ### Well-formedness: an ill-formed term for each check, and its bounds -/

theorem test_wf_every_selector : ∀ r : RegIdx, (Instr.jump r).wf = true := by decide

theorem test_wf_image_of_65536_bytes : imageFits (List.replicate 65536 0x00#8) = true :=
  decide_eq_true (by rw [List.length_replicate]; decide)

theorem test_wf_image_of_65537_bytes_refused : imageFits (List.replicate 65537 0x00#8) = false :=
  decide_eq_false (by rw [List.length_replicate]; decide)

theorem test_wf_odd_text_refused : hexTextWf ['1', '2', '3'] = false := by decide

theorem test_wf_non_hex_text_refused : hexTextWf ['z', 'z'] = false := by decide

theorem test_wf_memory_unsorted_refused : ¬ Memory.wf 256 [(2, 1#8), (1, 1#8)] := by decide

theorem test_wf_memory_blank_cell_refused : ¬ Memory.wf 256 [(1, 0#8)] := by decide

theorem test_wf_memory_out_of_range_refused : ¬ Memory.wf 256 [(256, 1#8)] := by decide

/-! ### Decoding: words written out from the patterns of 40, 41, 42, 43 and the table of 95 section 2.1 -/

theorem test_decode_nop : decodeOpcode 0b00001111#8 = .nop 15#4 := by decide
theorem test_decode_loadImm : decodeOpcode 0b00011010#8 = .loadImm 10#4 := by decide
theorem test_decode_loadMem : decodeOpcode 0b00101111#8 = .loadMem 15#4 := by decide
theorem test_decode_storeMem : decodeOpcode 0b00110000#8 = .storeMem 0#4 := by decide
theorem test_decode_swapMove : decodeOpcode 0b01000011#8 = .swapMove 3#4 := by decide
theorem test_decode_shl : decodeOpcode 0b01011100#8 = .shl 12#4 := by decide
theorem test_decode_not : decodeOpcode 0b01101101#8 = .notOp 13#4 := by decide
theorem test_decode_or : decodeOpcode 0b01110001#8 = .orOp 1#4 := by decide
theorem test_decode_and : decodeOpcode 0b10000100#8 = .andOp 4#4 := by decide
theorem test_decode_xor : decodeOpcode 0b10011110#8 = .xorOp 14#4 := by decide
theorem test_decode_add : decodeOpcode 0b10100000#8 = .add 0#4 := by decide
theorem test_decode_sub : decodeOpcode 0b10110001#8 = .sub 1#4 := by decide
theorem test_decode_cmp : decodeOpcode 0b11000010#8 = .cmp 2#4 := by decide
theorem test_decode_skipIfOdd : decodeOpcode 0b11011011#8 = .skipIfOdd 11#4 := by decide
theorem test_decode_jump : decodeOpcode 0b11100100#8 = .jump 4#4 := by decide
theorem test_decode_unrecognized : decodeOpcode 0b11111111#8 = .unrecognized 15#4 := by decide

/-- R46's example `0x1R` then `D`, as the stream `17 AB 37`. -/
theorem test_decode_two_byte_stream :
    decode [0x17#8, 0xAB#8, 0x37#8] = .ok (.loadImm 7#4, [0xAB#8], [0x37#8]) := by rfl

theorem test_decode_lone_loadImm_refused : decode [0x17#8] = .error (.noDataByte 7#4) := by rfl

theorem test_encode_loadImm : encode (.loadImm 7#4) 0xAB#8 = [0x17#8, 0xAB#8] := by decide

theorem test_table_word_loadImm : decodeTableWord 16 0xAB17 = some (.loadImm 7#4) := by decide

theorem test_table_word_short : decodeTableWord 8 0xAB17 = some (.loadImm 7#4) := by decide

/-- The first step after reset runs the placed instruction (rule R95's entry point). -/
theorem test_placed_word_runs_first : after (fun t => (t.pend, t.pc)) (State.reset.withFetchWord 16 0xAB17)
    = some (.imm 7#4, 0x0001#16) := by decide

/-! ### Steps: 95_test_vectors.md sections 1 and 2 -/

theorem test_nop_moves_pc : after (fun t => (t.pc, t.halted)) (atPc 0x0005#16 0x00#8) = some (0x0006#16, false) := by decide

/-- Section 2.1: the byte 0xF0 fetched with `pend = Imm(6)` is data. -/
theorem test_loadImm_data_never_halts :
    after (fun t => (t.reg 6#4, t.pend, t.halted)) { atPc 0x0001#16 0xF0#8 with pend := .imm 6#4 }
      = some (0xF0#8, .op, false) := by decide

theorem test_loadMem_reads_address_first :
    after (fun t => t.reg 2#4) (((atPc 0x0000#16 0x22#8).setReg 2#4 0x10#8).memWrite 0x10#8 0x44#8) = some 0x44#8 := by decide

theorem test_loadMem_top_address :
    after (fun t => t.reg 5#4) (((atPc 0x0000#16 0x25#8).setReg 2#4 0xFF#8).memWrite 0xFF#8 0x99#8) = some 0x99#8 := by decide

theorem test_storeMem_stores :
    after (fun t => t.memRead 0x10#8) (((atPc 0x0000#16 0x37#8).setReg 2#4 0x10#8).setReg 7#4 0xAB#8) = some 0xAB#8 := by decide

theorem test_storeMem_stores_own_address :
    after (fun t => t.dmem) ((atPc 0x0000#16 0x32#8).setReg 2#4 0x80#8) = some [(0x80, 0x80#8)] := by decide

theorem test_swapMove_exchanges :
    after (fun t => (t.reg 3#4, t.reg 8#4)) (((atPc 0x0000#16 0x48#8).setReg 3#4 0x5C#8).setReg 8#4 0xAB#8)
      = some (0xAB#8, 0x5C#8) := by decide

theorem test_swapMove_r3_keeps : after (fun t => t.reg 3#4) ((atPc 0x0000#16 0x43#8).setReg 3#4 0x5C#8) = some 0x5C#8 := by decide

theorem test_shl_drops_bit7 : after (fun t => t.reg 6#4) ((atPc 0x0000#16 0x56#8).setReg 6#4 0xFF#8) = some 0xFE#8 := by decide

theorem test_not_complements : after (fun t => t.reg 5#4) ((atPc 0x0000#16 0x65#8).setReg 5#4 0x01#8) = some 0xFE#8 := by decide

/-- Reset with `x[0] = a`, `x[1] = b`, `x[7] = 0x37` and the byte `op` to fetch: the table of section 2.3. -/
def pair (op a b : Byte) : State := (((atPc 0x0000#16 op).setReg 0#4 a).setReg 1#4 b).setReg 7#4 0x37#8

theorem test_or_row : after (fun t => t.reg 7#4) (pair 0x77#8 0xF0#8 0x0F#8) = some 0xFF#8 := by decide
theorem test_and_row : after (fun t => t.reg 7#4) (pair 0x87#8 0xFF#8 0xF0#8) = some 0xF0#8 := by decide
theorem test_xor_row : after (fun t => t.reg 7#4) (pair 0x97#8 0xFF#8 0x02#8) = some 0xFD#8 := by decide
theorem test_xor_into_operand : after (fun t => t.reg 0#4) (pair 0x90#8 0xF0#8 0x0F#8) = some 0xFF#8 := by decide
theorem test_add_wraps : after (fun t => t.reg 7#4) (pair 0xA7#8 0xFF#8 0x02#8) = some 0x01#8 := by decide
theorem test_add_into_operand : after (fun t => t.reg 0#4) (pair 0xA0#8 0x05#8 0x01#8) = some 0x06#8 := by decide
theorem test_sub_borrows : after (fun t => t.reg 7#4) (pair 0xB7#8 0x02#8 0xFF#8) = some 0x03#8 := by decide
theorem test_sub_into_operand : after (fun t => t.reg 1#4) (pair 0xB1#8 0x05#8 0x03#8) = some 0x02#8 := by decide
theorem test_cmp_unsigned_greater : after (fun t => t.reg 7#4) (pair 0xC7#8 0x80#8 0x7F#8) = some 0x01#8 := by decide
theorem test_cmp_equal_keeps : after (fun t => t.reg 7#4) (pair 0xC7#8 0x02#8 0x02#8) = some 0x37#8 := by decide

theorem test_skip_wraps_under_unsigned :
    after (fun t => t.pc) { (atPc 0xFFFF#16 0xD5#8).setReg 5#4 0x01#8 with policy := .unsigned } = some 0x0001#16 := by decide

theorem test_skip_even_does_not : after (fun t => t.pc) ((atPc 0x0002#16 0xD5#8).setReg 5#4 0xFE#8) = some 0x0003#16 := by decide

theorem test_jump_target :
    after (fun t => t.pc) (((atPc 0x0040#16 0xE2#8).setReg 4#4 0x01#8).setReg 2#4 0x02#8) = some 0x0102#16 := by decide

theorem test_jump_r4 : after (fun t => t.pc) ((atPc 0x0000#16 0xE4#8).setReg 4#4 0x12#8) = some 0x1212#16 := by decide

theorem test_halt : after (fun t => (t.halted, t.cont, t.pc)) (atPc 0x000C#16 0xF0#8) = some (true, false, 0x000D#16) := by decide

theorem test_halted_block_holds : after (fun t => t.pc) { atPc 0x0000#16 0x00#8 with halted := true } = some 0x0000#16 := by decide

/-- Section 2.4: `pc = 0x9000` under `SignedFault` faults and keeps everything else; under `Unsigned` it runs. -/
theorem test_fetch_out_of_range :
    step (atPc 0x9000#16 0x00#8)
      = .fault (.fetchOutOfRange { atPc 0x9000#16 0x00#8 with faulted := true, faultCause := 1#2 }) := by rfl

theorem test_fetch_unsigned_runs :
    after (fun t => t.pc) { atPc 0x9000#16 0x00#8 with policy := .unsigned } = some 0x9001#16 := by decide

/-! ### Host side and assembly: W8, section 2.5, part 3 -/

theorem test_text_mixed_case : decodeHex ['0', 'a', '1', 'B'] = .ok [0x0A#8, 0x1B#8] := by rfl
theorem test_obs_minus_one : obs (pair 0x00#8 0xFF#8 0xFF#8) (-1) = 0x00#8 := by decide
theorem test_obs_five : obs ((img []).setReg 5#4 0x01#8) 5 = 0x01#8 := by decide
theorem test_assemble_p4 :
    assemble [.loadImm 5#4 0x01#8, .skipIfOdd 5#4, .loadImm 6#4 0x65#8, .halt]
      = [0x15#8, 0x01#8, 0xD5#8, 0x16#8, 0x65#8, 0xF0#8] := by decide
theorem test_asm_text : asmText (.loadImm 10#4 0xAB#8) = "LOAD-IMM r10, 0xAB" := by decide

/-! ### Witnesses: the hypotheses of each statement are met, clause by clause, at a boundary -/

/-- Inputs of an edge that steps. -/
def stepInputs : Inputs := ⟨false, true, 0#8, ⟨⟨[], rfl⟩, .signedFault⟩⟩

theorem witness_LowBytesAreAllNop : (0x0F#8 : Byte).toNat ≤ 0x0F := by decide

theorem witness_DecodeInvertsEncode :
    (Instr.loadImm 15#4).wf = true ∧ ∀ r, Instr.unrecognized 15#4 ≠ .loadImm r := by decide

theorem witness_DecodeRefusesOnlyMissingBytes : 2 ≤ [0x1F#8, 0xFF#8].length := by decide

theorem witness_DisassemblyKeepsBehaviour :
    (∀ r, Instr.jump 15#4 ≠ .nop r) ∧ (∀ r, Instr.jump 15#4 ≠ .unrecognized r) ∧ (∃ r, Instr.nop 15#4 = .nop r) ∧
      ∃ r, Instr.unrecognized 15#4 = .unrecognized r := by decide

theorem witness_StepRunsDecodedInstruction :
    (atPc 0x7FFF#16 0xEF#8).Fetchable ∧ (atPc 0x7FFF#16 0xEF#8).pend = .op ∧
      decodeOpcode ((atPc 0x7FFF#16 0xEF#8).progRead 0x7FFF#16) = .jump 15#4 :=
  ⟨⟨by decide, by decide, by decide⟩, by decide, by decide⟩

theorem witness_StepChecksInOrder_stopped :
    ({ img [] with halted := true } : State).halted = true ∧ ({ img [] with faulted := true } : State).faulted = true := by
  decide

theorem witness_StepChecksInOrder_unadmitted :
    (atPc 0x8000#16 0x00#8).halted = false ∧ (atPc 0x8000#16 0x00#8).faulted = false ∧
      admitted (atPc 0x8000#16 0x00#8).policy (atPc 0x8000#16 0x00#8).pc = false := by decide

theorem witness_StepChecksInOrder_data :
    ({ atPc 0x7FFF#16 0xF0#8 with pend := .imm 15#4 } : State).Fetchable := ⟨by decide, by decide, by decide⟩

theorem witness_StepChecksInOrder_halts :
    (atPc 0x7FFF#16 0xF0#8).Fetchable ∧ 0xF0 ≤ ((atPc 0x7FFF#16 0xF0#8).progRead 0x7FFF#16).toNat :=
  ⟨⟨by decide, by decide, by decide⟩, by decide⟩

theorem witness_StepChecksInOrder_runs :
    (atPc 0x7FFF#16 0xEF#8).Fetchable ∧ ((atPc 0x7FFF#16 0xEF#8).progRead 0x7FFF#16).toNat < 0xF0 :=
  ⟨⟨by decide, by decide, by decide⟩, by decide⟩

theorem witness_StepEndsInOneOfThreeWays : State.reset.stopped = false := by decide

theorem witness_FetchAdmissionFollowsPolicy :
    (atPc 0x8000#16 0x00#8).stopped = false ∧ admitted (atPc 0x8000#16 0x00#8).policy 0x8000#16 = false := by decide

theorem witness_FetchOutOfRangeIsPrecise :
    ((atPc 0x8000#16 0x00#8).stopped = false ∧ (atPc 0x8000#16 0x00#8).policy = .signedFault ∧
      (atPc 0x8000#16 0x00#8).pc[15] = true) ∧
    ({ atPc 0x8000#16 0x00#8 with policy := .unsigned } : State).policy = .unsigned := by decide

theorem witness_HaltAndFaultLatchUntilReset :
    (∃ t, step (atPc 0x8000#16 0x00#8) = .fault (.fetchOutOfRange t)) ∧
    ((atPc 0x0000#16 0xF0#8).Fetchable ∧ (atPc 0x0000#16 0xF0#8).pend = .op ∧
      decodeOpcode ((atPc 0x0000#16 0xF0#8).progRead 0x0000#16) = .unrecognized 0#4) ∧
    ({ img [] with halted := true } : State).stopped = true :=
  ⟨⟨_, rfl⟩, ⟨⟨by decide, by decide, by decide⟩, by decide, by decide⟩, by decide⟩

theorem witness_StepMovesPcModulo65536_data :
    ({ atPc 0x7FFF#16 0xF0#8 with pend := .imm 15#4 } : State).Fetchable ∧
      ∃ t, step { atPc 0x7FFF#16 0xF0#8 with pend := .imm 15#4 } = .next t := ⟨⟨by decide, by decide, by decide⟩, _, rfl⟩

theorem witness_StepMovesPcModulo65536_opcode :
    (atPc 0x7FFF#16 0xDF#8).Fetchable ∧ (∃ t, step (atPc 0x7FFF#16 0xDF#8) = .next t) ∧
      (atPc 0x7FFF#16 0xDF#8).pend = .op ∧
      decodeOpcode ((atPc 0x7FFF#16 0xDF#8).progRead 0x7FFF#16) = .skipIfOdd 15#4 ∧
      decodeOpcode ((atPc 0x7FFF#16 0xEF#8).progRead 0x7FFF#16) = .jump 15#4 ∧
      (∀ r, Instr.cmp 15#4 ≠ .skipIfOdd r) ∧ (∀ r, Instr.cmp 15#4 ≠ .jump r) :=
  ⟨⟨by decide, by decide, by decide⟩, ⟨_, rfl⟩, by decide, by decide, by decide, by decide, by decide⟩

theorem witness_LoadImmTakesItsTwoSteps :
    (({ atPc 0x7FFF#16 0xF0#8 with pend := .imm 15#4 } : State).Fetchable) ∧
    (({ atPc 0x8000#16 0xF0#8 with pend := .imm 15#4 } : State).stopped = false ∧
      admitted ({ atPc 0x8000#16 0xF0#8 with pend := .imm 15#4 } : State).policy 0x8000#16 = false) :=
  ⟨⟨by decide, by decide, by decide⟩, by decide⟩

theorem witness_StoreMemWritesAddressedByte :
    ((img []).setReg 2#4 0xFF#8).ramAddr = 0xFF#8 ∧ (0x00#8 : Byte) ≠ 0xFF#8 := by decide

theorem witness_SwapMoveExchangesRegisters : (15#4 : RegIdx) ≠ 0#4 ∧ (15#4 : RegIdx) ≠ 3#4 := by decide

theorem witness_CmpSetsOneOrLeavesAlone :
    ((pair 0xC7#8 0x80#8 0x7F#8).reg 1#4).toNat < ((pair 0xC7#8 0x80#8 0x7F#8).reg 0#4).toNat ∧
    ((pair 0xC7#8 0x02#8 0x02#8).reg 0#4).toNat ≤ ((pair 0xC7#8 0x02#8 0x02#8).reg 1#4).toNat := by decide

theorem witness_SkipIfOddMovesPcByOne :
    (((atPc 0xFFFF#16 0xD5#8).setReg 5#4 0xFF#8).reg 5#4).toNat % 2 = 1 ∧
    (((atPc 0xFFFF#16 0xD5#8).setReg 5#4 0x00#8).reg 5#4).toNat % 2 = 0 := by decide

theorem witness_OnlyNamedInstructionsWrite :
    (∃ t, exec (.storeMem 15#4) (img []) = .next t) ∧ (∀ r, Instr.storeMem 15#4 ≠ .skipIfOdd r) ∧
      (∀ r, Instr.storeMem 15#4 ≠ .jump r) ∧ (∀ r, Instr.storeMem 15#4 ≠ .loadImm r) ∧
      (∀ r, Instr.storeMem 15#4 ≠ .unrecognized r) ∧ ∀ r, Instr.loadMem 15#4 ≠ .storeMem r :=
  ⟨⟨_, rfl⟩, by decide, by decide, by decide, by decide, by decide⟩

theorem witness_OnlyStoreStepChangesWorkingMemory :
    ∃ t, step ((atPc 0x0000#16 0x32#8).setReg 2#4 0xFF#8) = .next t ∧
      t.memRead 0xFF#8 ≠ ((atPc 0x0000#16 0x32#8).setReg 2#4 0xFF#8).memRead 0xFF#8 := ⟨_, rfl, by decide⟩

/-- STORE-MEM r5 at 0xFF, LOAD-IMM r2, 0x00, STORE-MEM r2 at 0x00, LOAD-IMM r2, 0xFF, LOAD-MEM r6: a store elsewhere and
two reloads of r2 stand between the store and the load. -/
def storeThenLoad : State :=
  ((img [0x35#8, 0x12#8, 0x00#8, 0x32#8, 0x12#8, 0xFF#8, 0x26#8]).setReg 2#4 0xFF#8).setReg 5#4 0xAB#8

/-- `storeThenLoad` after `k` steps. -/
def storeThenLoadAt (k : Nat) : State :=
  match k with
  | 0 => storeThenLoad
  | k + 1 => stateAfter (storeThenLoadAt k)

theorem witness_LoadReturnsLastStoredByte_between :
    NoStoreTo (storeThenLoad.reg 2#4) 5 (storeThenLoadAt 1) := by
  intro j hj v hv hs
  have hr : ∀ j < 5, core.run j (storeThenLoadAt 1) = .next (storeThenLoadAt (j + 1)) := by
    intro j hj
    match j, hj with
    | 0, _ => rfl
    | 1, _ => rfl
    | 2, _ => rfl
    | 3, _ => rfl
    | 4, _ => rfl
  have hn : ∀ j < 5, (∃ r, decodeOpcode ((storeThenLoadAt (j + 1)).progRead (storeThenLoadAt (j + 1)).pc) = .storeMem r) →
      (storeThenLoadAt (j + 1)).pend = .op → (storeThenLoadAt (j + 1)).reg 2#4 ≠ storeThenLoad.reg 2#4 := by decide
  rw [hr j hj] at hv
  cases Host.Outcome.next.inj hv
  exact hn j hj hs.2.2.1 hs.2.1 hs.2.2.2

theorem witness_LoadReturnsLastStoredByte_stored :
    storeThenLoad.Fetchable ∧ storeThenLoad.pend = .op ∧
      decodeOpcode (storeThenLoad.progRead storeThenLoad.pc) = .storeMem 5#4 ∧
      step storeThenLoad = .next (storeThenLoadAt 1) ∧ core.run 5 (storeThenLoadAt 1) = .next (storeThenLoadAt 6) ∧
      (storeThenLoadAt 6).Fetchable ∧ (storeThenLoadAt 6).pend = .op ∧
      decodeOpcode ((storeThenLoadAt 6).progRead (storeThenLoadAt 6).pc) = .loadMem 6#4 ∧
      (storeThenLoadAt 6).reg 2#4 = storeThenLoad.reg 2#4 :=
  ⟨⟨by decide, by decide, by decide⟩, by decide, by decide, rfl, rfl, ⟨by decide, by decide, by decide⟩, by decide,
    by decide, by decide⟩

/-- The image of one byte, LOAD-MEM r6, run from reset with no step before it. -/
def loadFirst : LaunchParams := ⟨⟨[0x26#8], by decide⟩, .signedFault⟩

theorem witness_LoadReturnsLastStoredByte_never_stored :
    core.run 0 (resetWith loadFirst) = .next (resetWith loadFirst) ∧ NoStoreTo 0x00#8 0 (resetWith loadFirst) ∧
      (resetWith loadFirst).reg 2#4 = 0x00#8 ∧ (resetWith loadFirst).Fetchable ∧ (resetWith loadFirst).pend = .op ∧
      decodeOpcode ((resetWith loadFirst).progRead (resetWith loadFirst).pc) = .loadMem 6#4 :=
  ⟨rfl, fun _ hj => absurd hj (Nat.not_lt_zero _), by decide, ⟨by decide, by decide, by decide⟩, by decide, by decide⟩

theorem witness_ProgramStoreIsImmutable :
    (∃ t, step State.reset = .next t) ∧ ∃ t, step (atPc 0x8000#16 0x00#8) = .fault (.fetchOutOfRange t) :=
  ⟨⟨_, rfl⟩, _, rfl⟩

theorem witness_AddressSpacesAreDisjoint : ∃ t, exec (.loadMem 15#4) (img []) = .next t := ⟨_, rfl⟩

theorem witness_WorkingMemoryReadsLastWrite :
    (0xFE#8 : Byte) ≠ 0xFF#8 ∧ (img []).dmem.wf Config.dmemSize := by decide

theorem witness_StepKeepsInvariant :
    State.reset.Inv ∧ (∃ t, step State.reset = .next t) ∧
    (atPc 0x8000#16 0x01#8).Inv ∧ ∃ t, step (atPc 0x8000#16 0x01#8) = .fault (.fetchOutOfRange t) :=
  ⟨⟨by decide, by decide, by decide, by decide, by decide, by decide⟩, ⟨_, rfl⟩,
    ⟨by decide, by decide, by decide, by decide, by decide, by decide⟩, _, rfl⟩

theorem witness_PathDecidesOpcodeOrData :
    (atPc 0x7FFF#16 0xF0#8).Fetchable ∧ 0xF0 ≤ ((atPc 0x7FFF#16 0xF0#8).progRead 0x7FFF#16).toNat :=
  ⟨⟨by decide, by decide, by decide⟩, by decide⟩

/-- The bytes `D5 16 65` of R104, with r5 odd. -/
theorem witness_SkipLandsOnImmediateByte :
    ((img [0xD5#8, 0x16#8, 0x65#8]).setReg 5#4 0x01#8).Fetchable ∧
      ((img [0xD5#8, 0x16#8, 0x65#8]).setReg 5#4 0x01#8).pend = .op ∧
      (img [0xD5#8, 0x16#8, 0x65#8]).progRead 0x0000#16 = 0xD#4 ++ 5#4 ∧
      (img [0xD5#8, 0x16#8, 0x65#8]).progRead (0x0000#16 + 1#16) = 0x1#4 ++ 6#4 ∧
      (((img [0xD5#8, 0x16#8, 0x65#8]).setReg 5#4 0x01#8).reg 5#4).toNat % 2 = 1 ∧
      admitted .signedFault (0x0000#16 + 2#16) = true :=
  ⟨⟨by decide, by decide, by decide⟩, by decide, by decide, by decide, by decide, by decide⟩

theorem witness_PaddingRunsToTheEndOfTheStore :
    ((atPc 0x7FFF#16 0x00#8).halted = false ∧ (atPc 0x7FFF#16 0x00#8).faulted = false ∧
      (atPc 0x7FFF#16 0x00#8).pend = .op ∧ (atPc 0x7FFF#16 0x00#8).policy = .signedFault ∧
      (atPc 0x7FFF#16 0x00#8).pc.toNat < 0x8000) ∧ ∀ a : PcWord, (atPc 0x7FFF#16 0x00#8).progRead a = 0x00#8 :=
  ⟨by decide, fun _ => rfl⟩

theorem witness_JumpToUpperHalfFaultsNext :
    ((atPc 0x7FFF#16 0xE5#8).setReg 4#4 0x80#8).Fetchable ∧
      ((atPc 0x7FFF#16 0xE5#8).setReg 4#4 0x80#8).policy = .signedFault ∧
      ((atPc 0x7FFF#16 0xE5#8).setReg 4#4 0x80#8).pend = .op ∧
      ((atPc 0x7FFF#16 0xE5#8).setReg 4#4 0x80#8).progRead 0x7FFF#16 = 0xE#4 ++ 5#4 ∧
      0x80 ≤ (((atPc 0x7FFF#16 0xE5#8).setReg 4#4 0x80#8).reg 4#4).toNat :=
  ⟨⟨by decide, by decide, by decide⟩, by decide, by decide, by decide, by decide⟩

theorem witness_LastFetchableAddressIs7FFF_loadImm :
    (atPc 0x7FFF#16 0x15#8).Fetchable ∧ (atPc 0x7FFF#16 0x15#8).policy = .signedFault ∧
      (atPc 0x7FFF#16 0x15#8).pend = .op ∧ (atPc 0x7FFF#16 0x15#8).progRead 0x7FFF#16 = 0x1#4 ++ 5#4 :=
  ⟨⟨by decide, by decide, by decide⟩, by decide, by decide, by decide⟩

theorem witness_LastFetchableAddressIs7FFF_skip :
    ((atPc 0x7FFE#16 0xD5#8).setReg 5#4 0x01#8).Fetchable ∧
      ((atPc 0x7FFE#16 0xD5#8).setReg 5#4 0x01#8).progRead 0x7FFE#16 = 0xD#4 ++ 5#4 ∧
      (((atPc 0x7FFE#16 0xD5#8).setReg 5#4 0x01#8).reg 5#4).toNat % 2 = 1 :=
  ⟨⟨by decide, by decide, by decide⟩, by decide, by decide⟩

theorem witness_ResetPutsEveryReset : ({ stepInputs with rst := true } : Inputs).rst = true := by decide

theorem witness_ImageLoadsUpToCapacity :
    (List.replicate 65536 0xFF#8).length ≤ 65536 ∧ 65536 < (List.replicate 65537 0xFF#8).length ∧
      stepInputs.rst = false := by
  rw [List.length_replicate, List.length_replicate]
  decide

theorem witness_ImageTextDecodesByDigitPairs :
    hexTextWf ['1', '2', '3'] = false ∧ (hexTextWf ['F', 'f'] = true ∧ ['F', 'f'].length ≤ 131072) ∧
      (hexTextWf (List.replicate 131074 '0') = true ∧ 131072 < (List.replicate 131074 '0').length) := by
  refine ⟨by decide, by decide, ?_, by rw [List.length_replicate]; decide⟩
  simp only [hexTextWf, List.all_replicate, List.length_replicate]
  decide

theorem witness_ClockEdgeResetsStepsOrHolds :
    (stepInputs.rst = false ∧ stepInputs.stepEn = true ∧ State.reset.halted = false ∧ State.reset.faulted = false) ∧
      ({ stepInputs with rst := true } : Inputs).rst = true ∧ ({ stepInputs with stepEn := false } : Inputs).stepEn = false := by
  decide

theorem witness_ObservationReadsRegisterOrZero :
    ((-1 : Int) < 0 ∧ 15 < (16 : Int)) ∧
      ({ stepInputs with obsIndex := 15#8 } : Inputs).obsIndex.toNat = (15#4 : RegIdx).toNat ∧ 16 ≤ ({ stepInputs with obsIndex := 16#8 } : Inputs).obsIndex.toNat := by decide

theorem witness_ContinuationSignalDropsOnHaltOrFault :
    State.reset.Fetchable ∧ stepInputs.rst = false ∧ stepInputs.stepEn = true ∧
      ∃ t, step (atPc 0x8000#16 0x00#8) = .fault (.fetchOutOfRange t) :=
  ⟨⟨by decide, by decide, by decide⟩, by decide, by decide, _, rfl⟩

theorem witness_StorePortAgreesWithMemory :
    (outputs stepInputs ((atPc 0x0000#16 0x3F#8).setReg 2#4 0xFF#8)).dmemWe = true ∧
      decodeOpcode (((atPc 0x0000#16 0x3F#8).setReg 2#4 0xFF#8).progRead 0x0000#16) = .storeMem 15#4 ∧
      (outputs stepInputs (img [])).dmemWe = false ∧ stepInputs.rst = false := by decide

theorem witness_StatusPortsShowHaltAndFault :
    (stepInputs.rst = false ∧ stepInputs.stepEn = true) ∧
      ((atPc 0x7FFF#16 0xF0#8).halted = false ∧ (atPc 0x7FFF#16 0xF0#8).faulted = false ∧
        admitted (atPc 0x7FFF#16 0xF0#8).policy 0x7FFF#16 = true) ∧
      ((atPc 0x8000#16 0xF0#8).halted = false ∧ (atPc 0x8000#16 0xF0#8).faulted = false ∧
        admitted (atPc 0x8000#16 0xF0#8).policy 0x8000#16 = false) ∧
      ({ img [] with halted := true } : State).halted = true ∧ ({ img [] with faulted := true } : State).faulted = true ∧
      ({ stepInputs with rst := true } : Inputs).rst = true := by decide

theorem witness_RunEndsHaltedStoppedOrFaulted_halted :
    (atPc 0x7FFF#16 0xF0#8).Inv ∧ (atPc 0x7FFF#16 0xF0#8).stopped = false ∧
      ∃ t, drive 1 (atPc 0x7FFF#16 0xF0#8) = .halted t :=
  ⟨⟨by decide, by decide, by decide, by decide, by decide, by decide⟩, by decide, _, rfl⟩

theorem witness_RunEndsHaltedStoppedOrFaulted_faulted :
    (atPc 0x8000#16 0x01#8).Inv ∧ (atPc 0x8000#16 0x01#8).stopped = false ∧
      ∃ t, drive 1 (atPc 0x8000#16 0x01#8) = .faulted t :=
  ⟨⟨by decide, by decide, by decide, by decide, by decide, by decide⟩, by decide, _, rfl⟩

theorem witness_RunEndsHaltedStoppedOrFaulted_stopped :
    State.reset.Inv ∧ State.reset.stopped = false ∧ ∃ t, drive 1 State.reset = .stopped t :=
  ⟨⟨by decide, by decide, by decide, by decide, by decide, by decide⟩, by decide, _, rfl⟩

theorem witness_PlacedInstructionRunsNext :
    decodeTableWord 16 0xFF1F = some (.loadImm 15#4) ∧ admitted State.reset.policy State.reset.pc = true := by decide

end Sys2Proof.Tests
end

section
/-! The memory family (20_memory.md): which fetches R43 admits, and that the Program Store is immutable (R41). -/

namespace Sys2Proof.Machine

/-! ### Fetch admission (R43) -/

theorem getElem_15_eq_msb (p : PcWord) : p[15] = p.msb := by
  rw [BitVec.msb_eq_getLsbD_last, BitVec.getLsbD_eq_getElem (by decide)]

theorem signed16_eq_toInt (p : PcWord) : signed16 p = p.toInt := by
  rw [signed16, BitVec.toInt_eq_msb_cond, getElem_15_eq_msb]
  rfl

theorem admitted_signedFault_iff_bit15 (p : PcWord) : admitted .signedFault p = true ↔ p[15] = false := by
  simp [admitted]

theorem admitted_signedFault_iff_signed16_nonneg (p : PcWord) :
    admitted .signedFault p = true ↔ 0 ≤ signed16 p := by
  rw [admitted_signedFault_iff_bit15, getElem_15_eq_msb, BitVec.msb_eq_toInt, signed16_eq_toInt,
    decide_eq_false_iff_not, Int.not_lt]

/-- The one outcome of a step whose fetch is not admitted; the Program Store does not occur in its condition. -/
theorem step_of_unadmitted {s : State} (hs : s.stopped = false) (ha : admitted s.policy s.pc = false) :
    step s = .fault (.fetchOutOfRange (s.latchFault causeFetchOutOfRange)) := by
  simp only [step, fetch_unadmitted hs ha, raiseFetchOutOfRange]

/-- Settles O11: admission looks at `pc` and the policy only, so one latched state, with the Program Store replaced,
serves every content of the store. -/
theorem fetchAdmissionFollowsPolicy : Obligations.FetchAdmissionFollowsPolicy := by
  refine ⟨fun _ => rfl, admitted_signedFault_iff_bit15, admitted_signedFault_iff_signed16_nonneg,
    signed16_eq_toInt, ?_⟩
  intro s hs ha m
  have faults (n : Memory) : step { s with prog := n } =
      .fault (.fetchOutOfRange (State.latchFault { s with prog := n } causeFetchOutOfRange)) :=
    step_of_unadmitted hs ha
  exact ⟨_, faults m, rfl, faults⟩

/-! ### The launch parameters (R11, R41) -/

/-- No meaning writes a launch parameter: each of its possible updates writes some other field. -/
theorem exec_keeps_launch {i : Instr} {s t : State} (h : exec i s = .next t) :
    t.prog = s.prog ∧ t.policy = s.policy := by
  rcases exec_next_cases h with rfl | ⟨_, _, rfl⟩ | ⟨_, _, rfl⟩ | ⟨_, _, rfl⟩ | ⟨_, _, rfl⟩ | ⟨_, _, _, rfl⟩ |
    ⟨_, _, rfl⟩ | ⟨_, _, rfl⟩
  all_goals exact ⟨rfl, rfl⟩

theorem step_next_keeps_launch {s t : State} (h : step s = .next t) : t.prog = s.prog ∧ t.policy = s.policy := by
  rcases step_next_cases h with ⟨_, rfl⟩ | ⟨_, _, r, _, rfl⟩ | ⟨_, _, _, hexec⟩
  · exact ⟨rfl, rfl⟩
  · exact ⟨rfl, rfl⟩
  · simpa using exec_keeps_launch hexec

theorem step_fault_keeps_launch {s t : State} (h : step s = .fault (.fetchOutOfRange t)) :
    t.prog = s.prog ∧ t.policy = s.policy := by
  obtain ⟨_, _, hf⟩ := step_fault_cases h
  cases hf
  exact ⟨rfl, rfl⟩

/-- Equal Program Stores read the same byte at every address. -/
theorem State.progRead_eq_of_prog_eq {s t : State} (h : t.prog = s.prog) (a : PcWord) :
    t.progRead a = s.progRead a :=
  congrArg (Memory.read · a.toNat) h

/-- Settles O35: neither a completed nor a faulted step writes a launch parameter. -/
theorem programStoreIsImmutable : Obligations.ProgramStoreIsImmutable := by
  intro s t h
  obtain ⟨hprog, hpolicy⟩ := h.elim step_next_keeps_launch step_fault_keeps_launch
  exact ⟨hprog, hpolicy, State.progRead_eq_of_prog_eq hprog⟩

end Sys2Proof.Machine
end

section
/-! The encoding family (30_encoding.md): which bytes decode to a given operation (R45, R48), and the two ranges whose
selector is ignored, NOP (R49) and the unrecognized opcode (R50). -/

namespace Sys2Proof

/-! ### The opcode map and its inverse -/

@[simp] theorem opcodeOf_decodeFields (op : Opcode) (s : RegIdx) : opcodeOf (decodeFields op s) = op := by
  revert op s
  decide

@[simp] theorem sel_decodeFields (op : Opcode) (s : RegIdx) : (decodeFields op s).sel = s := by
  revert op s
  decide

@[simp] theorem decodeFields_opcodeOf_sel (i : Instr) : decodeFields (opcodeOf i) i.sel = i := by
  cases i <;> rfl

theorem decodeFields_eq_iff {op : Opcode} {s : RegIdx} {i : Instr} :
    decodeFields op s = i ↔ op = opcodeOf i ∧ s = i.sel := by
  constructor
  · rintro rfl
    simp
  · rintro ⟨rfl, rfl⟩
    simp

/-- A byte decodes to an instruction exactly when its two fields are that instruction's. -/
theorem decodeOpcode_eq_iff {b : Byte} {i : Instr} :
    decodeOpcode b = i ↔ highNibble b = opcodeOf i ∧ lowNibble b = i.sel :=
  decodeFields_eq_iff

/-! ### The byte range of an operation -/

theorem highNibble_toNat (b : Byte) : (highNibble b).toNat = b.toNat / 16 := by
  have hb : b.toNat < 256 := b.isLt
  rw [highNibble, BitVec.extractLsb'_toNat, Nat.shiftRight_eq_div_pow]
  omega

/-- The bytes of the operation `op`, whatever its selector, are the sixteen whose high nibble is its opcode `o`. -/
theorem exists_decodeOpcode_eq_iff {op : RegIdx → Instr} {o : Opcode} (hop : ∀ r, opcodeOf (op r) = o)
    (hsel : ∀ r, (op r).sel = r) (b : Byte) : (∃ r, decodeOpcode b = op r) ↔ b.toNat / 16 = o.toNat := by
  rw [← highNibble_toNat, BitVec.toNat_inj]
  simp only [decodeOpcode_eq_iff, hop, hsel]
  exact ⟨fun ⟨_, ho, _⟩ => ho, fun ho => ⟨_, ho, rfl⟩⟩

theorem decodeOpcode_eq_nop_iff (b : Byte) : (∃ r, decodeOpcode b = .nop r) ↔ b.toNat ≤ 0x0F := by
  have hrange : (∃ r, decodeOpcode b = .nop r) ↔ b.toNat / 16 = 0x0 :=
    exists_decodeOpcode_eq_iff (o := 0x0#4) (fun _ => rfl) (fun _ => rfl) b
  rw [hrange]
  omega

theorem decodeOpcode_eq_unrecognized_iff (b : Byte) : (∃ r, decodeOpcode b = .unrecognized r) ↔ 0xF0 ≤ b.toNat := by
  have hrange : (∃ r, decodeOpcode b = .unrecognized r) ↔ b.toNat / 16 = 0xF :=
    exists_decodeOpcode_eq_iff (o := 0xF#4) (fun _ => rfl) (fun _ => rfl) b
  have hb : b.toNat < 256 := b.isLt
  rw [hrange]
  omega

end Sys2Proof

namespace Sys2Proof.Machine

/-! ### What the two operations do -/

@[simp] theorem exec_nop (r : RegIdx) (s : State) : exec (.nop r) s = .next s := rfl

@[simp] theorem exec_unrecognized (r : RegIdx) (s : State) : exec (.unrecognized r) s = .next s.setHalted := rfl

/-- Settles O3: the byte range is that of opcode 0xF, and `setHalted` is the one update of its meaning. -/
theorem unrecognizedBytesAreF0ToFF : Obligations.UnrecognizedBytesAreF0ToFF :=
  ⟨decodeOpcode_eq_unrecognized_iff, exec_unrecognized⟩

/-- Settles O4: a byte of the range decodes to NOP with some selector, and NOP ignores it. -/
theorem lowBytesAreAllNop : Obligations.LowBytesAreAllNop := by
  refine ⟨decodeOpcode_eq_nop_iff, fun b s hb => ?_, decodeOpcode_eq_iff.2 ⟨rfl, rfl⟩⟩
  obtain ⟨r, hr⟩ := (decodeOpcode_eq_nop_iff b).2 hb
  rw [hr, exec_nop]

end Sys2Proof.Machine
end

section
/-! The load and move family (40_load_move.md): NOP (R59), LOAD-IMM in its two steps (R60), LOAD-MEM (R61), STORE-MEM (R62)
and SWAP-MOVE (R63), whose exchange acts on the register indices as a transposition. -/

namespace Sys2Proof

/-- Every opcode byte `oooossss` reads back as the instruction it was written for (R45, R48). -/
@[simp] theorem decodeOpcode_encodeOpcode (i : Instr) : decodeOpcode (encodeOpcode i) = i := by
  obtain ⟨hop, hsel, -⟩ := Laws.OpcodeByteFields.fields (opcodeOf i) i.sel
  exact decodeOpcode_eq_iff.2 ⟨hop, hsel⟩

end Sys2Proof

namespace Sys2Proof.Machine

/-! ### Frames of the register updates -/

/-- An update of the Register File alone has the frame `OnlyRegs`, once its registers are known. -/
theorem SameRegsExcept.onlyRegs {ds : List RegIdx} {s : State} {x : Vector Byte 16}
    (h : SameRegsExcept ds s { s with x := x }) : OnlyRegs ds s { s with x := x } :=
  ⟨h, rfl, ⟨rfl, rfl, rfl, rfl, rfl⟩, fun _ => rfl, fun _ => rfl⟩

theorem State.onlyRegs_refl (ds : List RegIdx) (s : State) : OnlyRegs ds s s :=
  SameRegsExcept.onlyRegs (x := s.x) fun _ _ => rfl

theorem State.sameRegsExcept_setReg (s : State) (i : RegIdx) (v : Byte) : SameRegsExcept [i] s (s.setReg i v) :=
  fun _ hj => s.reg_setReg_ne v (List.ne_of_not_mem_cons hj)

theorem State.onlyRegs_setReg (s : State) (i : RegIdx) (v : Byte) : OnlyRegs [i] s (s.setReg i v) :=
  (s.sameRegsExcept_setReg i v).onlyRegs

/-! ### A sequence of instructions -/

@[simp] theorem execAll_nil (s : State) : execAll [] s = .next s := rfl

theorem execAll_cons_of_next {i : Instr} {s t : State} (h : exec i s = .next t) (is : List Instr) :
    execAll (i :: is) s = execAll is t := by
  simp only [execAll, h]

/-! ### What the operations do -/

/-- The exchange of r3 and `x[d]` (R63), both read before either is written. -/
def State.exchange (s : State) (d : RegIdx) : State := (s.setReg movtReg (s.reg d)).setReg d s.moveTarget

@[simp] theorem exec_loadImm (r : RegIdx) (s : State) : exec (.loadImm r) s = .next (s.setPend (.imm r)) := rfl

@[simp] theorem exec_loadMem (r : RegIdx) (s : State) :
    exec (.loadMem r) s = .next (s.setReg r (s.memRead s.ramAddr)) := rfl

@[simp] theorem exec_storeMem (r : RegIdx) (s : State) :
    exec (.storeMem r) s = .next (s.memWrite s.ramAddr (s.reg r)) := rfl

@[simp] theorem exec_swapMove (d : RegIdx) (s : State) : exec (.swapMove d) s = .next (s.exchange d) := rfl

/-- The data step of LOAD-IMM (R60): the byte at `pc` goes into the pending register undecoded. -/
theorem step_of_pending {s : State} {r : RegIdx} (hs : s.Fetchable) (hp : s.pend = .imm r) :
    step s = .next ((s.advancePc.setReg r (s.progRead s.pc)).setPend .op) := by
  simp only [step, fetch_admitted hs.not_stopped hs.pc_admitted, hp, decodeFetched, execDataByte]

/-! ### The exchange as a transposition of the registers -/

theorem State.reg_exchange (s : State) (d j : RegIdx) :
    (s.exchange d).reg j = s.reg (Equiv.swap movtReg d j) := by
  rw [State.exchange]
  by_cases hd : j = d
  · rw [hd, State.reg_setReg_same, Equiv.swap_apply_right, State.moveTarget]
  · rw [State.reg_setReg_ne _ _ hd]
    by_cases hm : j = movtReg
    · rw [hm, State.reg_setReg_same, Equiv.swap_apply_left]
    · rw [State.reg_setReg_ne _ _ hm, Equiv.swap_apply_of_ne_of_ne hm hd]

theorem State.reg_exchange_movt (s : State) (d : RegIdx) : (s.exchange d).reg movtReg = s.reg d := by
  rw [State.reg_exchange, Equiv.swap_apply_left]

theorem State.reg_exchange_self (s : State) (d : RegIdx) : (s.exchange d).reg d = s.reg movtReg := by
  rw [State.reg_exchange, Equiv.swap_apply_right]

theorem State.onlyRegs_exchange (s : State) (d : RegIdx) : OnlyRegs [movtReg, d] s (s.exchange d) := by
  refine SameRegsExcept.onlyRegs fun j hj => ?_
  obtain ⟨hm, hd⟩ : j ≠ movtReg ∧ j ≠ d := by simpa using hj
  exact (s.reg_exchange d j).trans (congrArg s.reg (Equiv.swap_apply_of_ne_of_ne hm hd))

/-- A transposition is its own inverse. -/
theorem State.exchange_exchange (s : State) (d : RegIdx) : (s.exchange d).exchange d = s := by
  have hx : ((s.exchange d).exchange d).x = s.x :=
    State.x_ext fun j => by rw [State.reg_exchange, State.reg_exchange, Equiv.swap_apply_self]
  calc (s.exchange d).exchange d = { s with x := ((s.exchange d).exchange d).x } := rfl
    _ = s := by rw [hx]

/-- The transposition of r3 and r0, conjugated by that of r3 and `x[a]`, is the one of `x[a]` and r0. -/
theorem State.reg_exchange_conj (s : State) {a : RegIdx} (ha : a ≠ 0#4) (j : RegIdx) :
    (((s.exchange a).exchange 0#4).exchange a).reg j = s.reg (Equiv.swap a 0#4 j) := by
  have hconj : Equiv.swap movtReg a * Equiv.swap 0#4 movtReg * Equiv.swap movtReg a = Equiv.swap a 0#4 :=
    Equiv.swap_mul_swap_mul_swap (by decide) ha.symm
  rw [State.reg_exchange, State.reg_exchange, State.reg_exchange, ← hconj, Equiv.swap_comm 0#4 movtReg]
  rfl

theorem State.onlyRegs_exchange_conj (s : State) {a : RegIdx} (ha : a ≠ 0#4) :
    OnlyRegs [0#4, a] s (((s.exchange a).exchange 0#4).exchange a) := by
  refine SameRegsExcept.onlyRegs fun j hj => ?_
  obtain ⟨hj0, hja⟩ : j ≠ 0#4 ∧ j ≠ a := by simpa using hj
  exact (s.reg_exchange_conj ha j).trans (congrArg s.reg (Equiv.swap_apply_of_ne_of_ne hja hj0))

/-! ### The statements -/

/-- Settles O16: the opcode step writes `pend` alone, the data step is `step_of_pending`, and a data fetch that is not
admitted latches the status alone. -/
theorem loadImmTakesItsTwoSteps : Obligations.LoadImmTakesItsTwoSteps := by
  intro d
  refine ⟨decodeOpcode_encodeOpcode (.loadImm d), fun s => ?opcodeStep, fun s hs hp => ?dataStep,
    fun s hs ha hp => ?unadmitted⟩
  case opcodeStep =>
    exact ⟨_, exec_loadImm d s, rfl, fun _ _ => rfl, rfl, rfl, rfl, rfl, rfl, fun _ => rfl, fun _ => rfl⟩
  case dataStep =>
    exact ⟨_, step_of_pending hs hp, s.advancePc.reg_setReg_same d _, rfl, s.advancePc.sameRegsExcept_setReg d _,
      rfl, rfl, rfl, rfl, rfl, fun _ => rfl, fun _ => rfl⟩
  case unadmitted => exact ⟨_, step_of_unadmitted hs ha, hp, rfl⟩

/-- Settles O19: a transposition is its own inverse, and conjugating the one of r3 and r0 moves it to `x[a]` and r0. -/
theorem swapMoveExchangesRegisters : Obligations.SwapMoveExchangesRegisters := by
  refine ⟨fun s d => ?once, fun s d => ?twice, fun s a h0 h3 => ?thrice⟩
  case once =>
    exact ⟨decodeOpcode_encodeOpcode (.swapMove d), _, exec_swapMove d s, s.reg_exchange_movt d,
      s.reg_exchange_self d, s.onlyRegs_exchange d⟩
  case twice =>
    rw [execAll_cons_of_next (exec_swapMove d s), execAll_cons_of_next (exec_swapMove d _), execAll_nil,
      State.exchange_exchange]
  case thrice =>
    have hrun : execAll [.swapMove a, .swapMove 0#4, .swapMove a] s =
        .next (((s.exchange a).exchange 0#4).exchange a) := by
      rw [execAll_cons_of_next (exec_swapMove a s), execAll_cons_of_next (exec_swapMove 0#4 _),
        execAll_cons_of_next (exec_swapMove a _), execAll_nil]
    have hframe := s.onlyRegs_exchange_conj h0
    refine ⟨_, hrun, ?_, ?_, hframe.regs 3#4 ?_, hframe⟩
    · rw [s.reg_exchange_conj h0, Equiv.swap_apply_right]
    · rw [s.reg_exchange_conj h0, Equiv.swap_apply_left]
    · simpa using h3.symm

/-- Settles O15: NOP answers the state it was given. -/
theorem nopChangesNothing : Obligations.NopChangesNothing := fun s sel =>
  ⟨decodeOpcode_encodeOpcode (.nop sel), s, exec_nop sel s, s.onlyRegs_refl [], rfl⟩

/-- Settles O17: the address is read before the one register write. -/
theorem loadMemReadsAddressedByte : Obligations.LoadMemReadsAddressedByte := fun s d =>
  ⟨decodeOpcode_encodeOpcode (.loadMem d), _, exec_loadMem d s, s.reg_setReg_same d _, s.onlyRegs_setReg d _⟩

/-- Settles O18: the one update is a Working Memory write at `x[2]`. -/
theorem storeMemWritesAddressedByte : Obligations.StoreMemWritesAddressedByte := by
  intro s r
  refine ⟨decodeOpcode_encodeOpcode (.storeMem r), _, exec_storeMem r s, ?bytes, rfl, fun _ => rfl, fun _ _ => rfl, rfl,
    rfl, rfl, rfl, rfl, rfl⟩
  rintro _ rfl
  constructor
  · rw [State.memRead_memWrite, if_pos rfl]
  · intro b hb
    rw [State.memRead_memWrite, if_neg hb]

end Sys2Proof.Machine
end

section
/-! The bit operation family (41_bit_ops.md): SHL (R64), NOT (R65), OR (R66), AND (R67) and XOR (R68), each one register
write of an ALU result whose bits are known. -/

namespace Sys2Proof.Machine

/-! ### The bits of the ALU results -/

theorem aluShl_eq_shiftLeft (v : Byte) : aluShl v = v <<< 1 := by
  apply BitVec.eq_of_toNat_eq
  rw [aluShl_toNat, BitVec.toNat_shiftLeft, Nat.shiftLeft_eq]
  omega

@[simp] theorem getLsbD_aluShl_zero (v : Byte) : (aluShl v).getLsbD 0 = false := by
  rw [aluShl_eq_shiftLeft, BitVec.getLsbD_shiftLeft]
  rfl

theorem aluNot_eq_not (v : Byte) : aluNot v = ~~~v := BitVec.xor_allOnes

theorem getLsbD_aluNot (v : Byte) {k : Nat} (hk : k < 8) : (aluNot v).getLsbD k = !v.getLsbD k := by
  rw [aluNot_eq_not, BitVec.getLsbD_not, decide_eq_true hk, Bool.true_and]

@[simp] theorem getLsbD_aluOr (a b : Byte) (k : Nat) : (aluOr a b).getLsbD k = (a.getLsbD k || b.getLsbD k) :=
  BitVec.getLsbD_or

@[simp] theorem getLsbD_aluAnd (a b : Byte) (k : Nat) : (aluAnd a b).getLsbD k = (a.getLsbD k && b.getLsbD k) :=
  BitVec.getLsbD_and

@[simp] theorem getLsbD_aluXor (a b : Byte) (k : Nat) : (aluXor a b).getLsbD k = (a.getLsbD k ^^ b.getLsbD k) :=
  BitVec.getLsbD_xor

/-! ### What the operations do: one register write, the operands read before it -/

@[simp] theorem exec_shl (r : RegIdx) (s : State) : exec (.shl r) s = .next (s.setReg r (aluShl (s.reg r))) := rfl

@[simp] theorem exec_notOp (r : RegIdx) (s : State) : exec (.notOp r) s = .next (s.setReg r (aluNot (s.reg r))) := rfl

@[simp] theorem exec_orOp (r : RegIdx) (s : State) :
    exec (.orOp r) s = .next (s.setReg r (aluOr (s.reg 0#4) (s.reg 1#4))) := rfl

@[simp] theorem exec_andOp (r : RegIdx) (s : State) :
    exec (.andOp r) s = .next (s.setReg r (aluAnd (s.reg 0#4) (s.reg 1#4))) := rfl

@[simp] theorem exec_xorOp (r : RegIdx) (s : State) :
    exec (.xorOp r) s = .next (s.setReg r (aluXor (s.reg 0#4) (s.reg 1#4))) := rfl

/-! ### The statements -/

/-- Settles O20: the register written holds `aluShl`, which is the shift by one, so its bit 0 is the zero shifted in. -/
theorem shlDoublesModulo256 : Obligations.ShlDoublesModulo256 := by
  intro s d
  refine ⟨decodeOpcode_encodeOpcode (.shl d), _, exec_shl d s, ?double, ?bitZero, s.onlyRegs_setReg d _⟩
  case double => rw [State.reg_setReg_same, aluShl_toNat]
  case bitZero => rw [State.reg_setReg_same, getLsbD_aluShl_zero]

/-- Settles O22: the exclusive or with 0xFF is the complement. -/
theorem notComplementsEveryBit : Obligations.NotComplementsEveryBit := by
  intro s d
  refine ⟨decodeOpcode_encodeOpcode (.notOp d), _, exec_notOp d s, fun k hk => ?_, s.onlyRegs_setReg d _⟩
  rw [State.reg_setReg_same, getLsbD_aluNot _ hk]

/-- Settles O23: both operands are registers of the state before the write, whatever `d` is. -/
theorem orJoinsEveryBit : Obligations.OrJoinsEveryBit := by
  intro s d
  refine ⟨decodeOpcode_encodeOpcode (.orOp d), _, exec_orOp d s, fun k _ => ?_, s.onlyRegs_setReg d _⟩
  rw [State.reg_setReg_same, getLsbD_aluOr]

/-- Settles O24: as for OR, with the bits of `aluAnd`. -/
theorem andMeetsEveryBit : Obligations.AndMeetsEveryBit := by
  intro s d
  refine ⟨decodeOpcode_encodeOpcode (.andOp d), _, exec_andOp d s, fun k _ => ?_, s.onlyRegs_setReg d _⟩
  rw [State.reg_setReg_same, getLsbD_aluAnd]

/-- Settles O25: as for OR, with the bits of `aluXor`. -/
theorem xorComparesEveryBit : Obligations.XorComparesEveryBit := by
  intro s d
  refine ⟨decodeOpcode_encodeOpcode (.xorOp d), _, exec_xorOp d s, fun k _ => ?_, s.onlyRegs_setReg d _⟩
  rw [State.reg_setReg_same, getLsbD_aluXor]

end Sys2Proof.Machine
end

section
/-! The arithmetic and compare family (42_arith_compare.md): ADD (R69) and SUB (R70), each one register write of an exact
integer result modulo 256, and CMP (R71), which writes only when its condition holds. -/

namespace Sys2Proof.Machine

/-! ### The ALU results as numbers -/

theorem aluAdd_toNat (a b : Byte) : (aluAdd a b).toNat = (a.toNat + b.toNat) % 256 := by
  rw [aluAdd_eq, BitVec.toNat_add]

theorem aluSub_toNat (a b : Byte) : ((aluSub a b).toNat : Int) = ((a.toNat : Int) - b.toNat) % 256 :=
  trunc8_toNat _

/-! ### What the operations do -/

@[simp] theorem exec_add (r : RegIdx) (s : State) :
    exec (.add r) s = .next (s.setReg r (aluAdd (s.reg 0#4) (s.reg 1#4))) := rfl

@[simp] theorem exec_sub (r : RegIdx) (s : State) :
    exec (.sub r) s = .next (s.setReg r (aluSub (s.reg 0#4) (s.reg 1#4))) := rfl

theorem exec_cmp_of_gt {s : State} (h : (s.reg 1#4).toNat < (s.reg 0#4).toNat) (r : RegIdx) :
    exec (.cmp r) s = .next (s.setReg r 0x01#8) :=
  if_pos ((gtUnsigned_iff _ _).2 h)

theorem exec_cmp_of_le {s : State} (h : (s.reg 0#4).toNat ≤ (s.reg 1#4).toNat) (r : RegIdx) :
    exec (.cmp r) s = .next s :=
  if_neg fun hgt => Nat.not_lt.2 h ((gtUnsigned_iff _ _).1 hgt)

/-! ### The statements -/

/-- Settles O26: the register written holds `aluAdd` of the old operands, the sum with its carry lost. -/
theorem addWritesSumModulo256 : Obligations.AddWritesSumModulo256 := by
  intro s d
  refine ⟨decodeOpcode_encodeOpcode (.add d), _, exec_add d s, ?_, s.onlyRegs_setReg d _⟩
  rw [State.reg_setReg_same, aluAdd_toNat]

/-- Settles O27: as for ADD, with the integer difference, which modulo 256 is never negative. -/
theorem subWritesDifferenceModulo256 : Obligations.SubWritesDifferenceModulo256 := by
  intro s d
  refine ⟨decodeOpcode_encodeOpcode (.sub d), _, exec_sub d s, ?_, s.onlyRegs_setReg d _⟩
  rw [State.reg_setReg_same, aluSub_toNat]

/-- Settles O28: greater writes 0x01; not greater, equality included, answers the state itself. -/
theorem cmpSetsOneOrLeavesAlone : Obligations.CmpSetsOneOrLeavesAlone := by
  intro s d
  refine ⟨decodeOpcode_encodeOpcode (.cmp d), ?_⟩
  rcases Nat.lt_or_ge (s.reg 1#4).toNat (s.reg 0#4).toNat with hgt | hle
  · exact ⟨_, exec_cmp_of_gt hgt d, s.onlyRegs_setReg d _, fun _ => s.reg_setReg_same d _,
      fun hle => absurd hgt (Nat.not_lt.2 hle)⟩
  · exact ⟨s, exec_cmp_of_le hle d, s.onlyRegs_refl [d], fun hgt => absurd hgt (Nat.not_lt.2 hle), fun _ => rfl⟩

end Sys2Proof.Machine
end

section
/-! The control family (43_control.md): SKIP-IF-ODD (R74) and JUMP (R75), which write `pc` and nothing else. -/

namespace Sys2Proof.Machine

/-! ### The frame and the value of a `pc` update -/

theorem State.frame_setPc (s : State) (p : PcWord) :
    SameRegsExcept [] s (s.setPc p) ∧ SameControl s (s.setPc p) ∧ SameMemories s (s.setPc p) :=
  ⟨fun j _ => s.reg_setPc p j, ⟨s.pend_setPc p, s.halted_setPc p, s.faulted_setPc p, s.faultCause_setPc p,
    s.policy_setPc p⟩, ⟨s.memRead_setPc p, s.progRead_setPc p⟩⟩

/-- The one byte passed over, modulo 2^16. -/
theorem State.toNat_pc_advancePc (s : State) : s.advancePc.pc.toNat = (s.pc.toNat + 1) % 65536 := by
  rw [State.pc_advancePc, BitVec.toNat_add]
  rfl

theorem State.toNat_jumpTarget (s : State) (r : RegIdx) :
    (s.jumpTarget r).toNat = 256 * (s.reg 4#4).toNat + (s.reg r).toNat :=
  concatBytes_toNat _ _

/-! ### What the operations do -/

theorem exec_skipIfOdd_of_odd {s : State} {r : RegIdx} (h : (s.reg r).toNat % 2 = 1) :
    exec (.skipIfOdd r) s = .next s.advancePc :=
  if_pos ((isOdd_iff _).2 h)

theorem exec_skipIfOdd_of_even {s : State} {r : RegIdx} (h : (s.reg r).toNat % 2 = 0) :
    exec (.skipIfOdd r) s = .next s :=
  if_neg fun hodd => by
    rw [isOdd_iff] at hodd
    omega

@[simp] theorem exec_jump (r : RegIdx) (s : State) : exec (.jump r) s = .next (s.setPc (s.jumpTarget r)) := rfl

/-! ### The statements -/

/-- Settles O29: an odd register advances `pc` once more, an even one answers the state itself. -/
theorem skipIfOddMovesPcByOne : Obligations.SkipIfOddMovesPcByOne := by
  intro s r
  refine ⟨decodeOpcode_encodeOpcode (.skipIfOdd r), ?_⟩
  rcases Nat.mod_two_eq_zero_or_one (s.reg r).toNat with heven | hodd
  · obtain ⟨hregs, -, hcontrol, hmemories⟩ := s.onlyRegs_refl []
    exact ⟨s, exec_skipIfOdd_of_even heven, fun hodd => by omega, fun _ => rfl, hregs, hcontrol, hmemories⟩
  · exact ⟨s.advancePc, exec_skipIfOdd_of_odd hodd, fun _ => s.toNat_pc_advancePc, fun heven => by omega,
      s.frame_setPc _⟩

/-- Settles O30: the one update puts the target into `pc`, unchecked. -/
theorem jumpSetsPcFromTwoRegisters : Obligations.JumpSetsPcFromTwoRegisters := fun s r =>
  ⟨decodeOpcode_encodeOpcode (.jump r), _, exec_jump r s, s.toNat_jumpTarget r, s.frame_setPc _⟩

end Sys2Proof.Machine
end

section
/-! The exceptions family (60_exceptions.md): the one fault, FetchOutOfRange (R80), and the observation port (R92). -/

namespace Sys2Proof.Machine

/-! ### The fault (R80) -/

@[simp] theorem State.cont_latchFault (s : State) (c : BitVec 2) : (s.latchFault c).cont = false := by
  rw [State.cont, State.stopped, State.faulted_latchFault, Bool.or_true, Bool.not_true]

theorem State.sameMemories_latchFault (s : State) (c : BitVec 2) : SameMemories s (s.latchFault c) :=
  ⟨s.memRead_latchFault c, s.progRead_latchFault c⟩

theorem admitted_signedFault_eq_false {p : PcWord} (h : p[15] = true) : admitted .signedFault p = false := by
  rw [admitted, h, Bool.not_true]

/-- A fault needs a fetch that is not admitted, and `Unsigned` admits every address. -/
theorem step_ne_fault_of_unsigned {s : State} (h : s.policy = .unsigned) (f : Fault) : step s ≠ .fault f := by
  intro hf
  obtain ⟨-, hunadmitted, -⟩ := step_fault_cases hf
  have hadmitted : admitted s.policy s.pc = true := by rw [h, admitted]
  exact Bool.false_ne_true (hunadmitted.symm.trans hadmitted)

/-- Settles O12: the state left is `latchFault` of the state before the step, which writes the status fields alone; `pend`
does not occur in the condition. -/
theorem fetchOutOfRangeIsPrecise : Obligations.FetchOutOfRangeIsPrecise := by
  refine ⟨fun s hs hpolicy hbit => ?faults, fun _ => step_ne_fault_of_unsigned⟩
  have hunadmitted : admitted s.policy s.pc = false := by
    rw [hpolicy, admitted_signedFault_eq_false hbit]
  exact ⟨_, step_of_unadmitted hs hunadmitted, s.faulted_latchFault _, s.faultCause_latchFault _, s.cont_latchFault _,
    s.pc_latchFault _, s.reg_latchFault _, s.pend_latchFault _, s.halted_latchFault _, s.policy_latchFault _,
    s.sameMemories_latchFault _⟩

/-! ### The observation port (R92) -/

/-- Every register index lies in the port's valid range. -/
theorem obs_toNat (s : State) (r : RegIdx) : obs s r.toNat = s.reg r := by
  have hrange : (0 : Int) ≤ r.toNat ∧ (r.toNat : Int) ≤ 15 := by omega
  rw [obs, if_pos hrange, Int.toNat_natCast, BitVec.ofNat_toNat, BitVec.setWidth_eq]

theorem obs_out_of_range (s : State) {i : Int} (h : i < 0 ∨ 15 < i) : obs s i = 0x00#8 :=
  if_neg (by omega)

theorem obsData_outputs (inp : Inputs) (s : State) : (outputs inp s).obsData = obs s inp.obsIndex.toNat := rfl

/-- Settles O51: the port carries `obs` of its index read as a number, and no case of `clockEdge` reads the index. -/
theorem observationReadsRegisterOrZero : Obligations.ObservationReadsRegisterOrZero := by
  refine ⟨obs_toNat, fun s _ => obs_out_of_range s, obsData_outputs, fun inp s r hindex => ?register,
    fun inp s hindex => ?zero, fun _ _ _ => rfl⟩
  case register => rw [obsData_outputs, hindex, obs_toNat]
  case zero =>
    rw [obsData_outputs]
    exact obs_out_of_range s (Or.inr (by omega))

end Sys2Proof.Machine
end

section
/-! The reset and hazards family (70_reset_and_hazards.md): what one clock edge does (R96), reset (R94), the loaded image
(R97), and the hazards of a skip (R104), a jump (R107) and the top of the fetchable half (R108). -/

namespace Sys2Proof.Machine

/-! ### The clock edge (R96) -/

theorem clockEdge_of_rst {inp : Inputs} (h : inp.rst = true) (s : State) : clockEdge inp s = resetWith inp.launch :=
  if_pos h

theorem clockEdge_of_stepEn {inp : Inputs} (hr : inp.rst = false) (he : inp.stepEn = true) (s : State) :
    clockEdge inp s = stateAfter s := by
  simp [clockEdge, hr, he]

theorem clockEdge_of_not_stepEn {inp : Inputs} (hr : inp.rst = false) (he : inp.stepEn = false) (s : State) :
    clockEdge inp s = s := by
  simp [clockEdge, hr, he]

/-- A step completes or faults, and `stateAfter` is the state it leaves in both. -/
theorem step_answers_stateAfter (s : State) :
    step s = .next (stateAfter s) ∨ step s = .fault (.fetchOutOfRange (stateAfter s)) := by
  rcases hstep : step s with t | ⟨t⟩ | r
  · exact .inl (by simp only [stateAfter, hstep])
  · exact .inr (by simp only [stateAfter, hstep])
  · exact absurd hstep (step_ne_refused s r)

theorem step_of_stopped {s : State} (h : s.stopped = true) : step s = .next s := by
  simp only [step, fetch_stopped h]

theorem stateAfter_of_stopped {s : State} (h : s.stopped = true) : stateAfter s = s := by
  simp only [stateAfter, step_of_stopped h]

/-- No step writes the Program Store, whatever it ends in. -/
theorem progRead_stateAfter (s : State) (a : PcWord) : (stateAfter s).progRead a = s.progRead a :=
  (programStoreIsImmutable s (stateAfter s) (step_answers_stateAfter s)).2.2 a

theorem progRead_clockEdge {inp : Inputs} (h : inp.rst = false) (s : State) (a : PcWord) :
    (clockEdge inp s).progRead a = s.progRead a := by
  cases he : inp.stepEn with
  | false => rw [clockEdge_of_not_stepEn h he]
  | true => rw [clockEdge_of_stepEn h he, progRead_stateAfter]

/-! ### What a loaded image reads as (R97) -/

theorem Memory.read_ofBytesFrom (bytes : List Byte) (base k : Nat) :
    Memory.read (Memory.ofBytesFrom base bytes) (base + k) = (bytes[k]?).getD Config.blankByte := by
  induction bytes generalizing base k with
  | nil => rfl
  | cons b rest ih =>
    rw [Memory.ofBytesFrom]
    cases k with
    | zero =>
      have habsent : ∀ c ∈ Memory.ofBytesFrom (base + 1) rest, c.1 ≠ base := fun c hc => by
        have := (Memory.ofBytesFrom_ge rest (base + 1) c hc).1
        omega
      refine (Memory.read_append_absent _ _ _ habsent).trans ?_
      by_cases hb : b = Config.blankByte <;> simp [hb, Memory.read]
    | succ k =>
      have habsent : ∀ c ∈ (if b = Config.blankByte then [] else [(base, b)] : Memory), c.1 ≠ base + (k + 1) := by
        split <;> simp
      rw [Memory.read_append _ _ _ habsent, List.getElem?_cons_succ, ← ih (base + 1) k, Nat.add_right_comm,
        Nat.add_assoc]

theorem progRead_resetWith (p : LaunchParams) (a : PcWord) :
    (resetWith p).progRead a = (p.image.bytes[a.toNat]?).getD 0x00#8 := by
  have hread := Memory.read_ofBytesFrom p.image.bytes 0 a.toNat
  rwa [Nat.zero_add] at hread

theorem imageFits_iff (bytes : List Byte) : imageFits bytes = true ↔ bytes.length ≤ 65536 :=
  decide_eq_true_iff

theorem imageOfBytes_of_fits {bytes : List Byte} (h : imageFits bytes = true) :
    imageOfBytes bytes = .ok ⟨bytes, h⟩ :=
  dif_pos h

theorem imageOfBytes_of_not_fits {bytes : List Byte} (h : ¬ imageFits bytes = true) :
    imageOfBytes bytes = .error .capacityError :=
  dif_neg h

/-! ### The state a launch puts in place (R94) -/

theorem reg_resetWith (p : LaunchParams) (r : RegIdx) : (resetWith p).reg r = 0x00#8 :=
  Vector.getElem_replicate r.isLt

/-! ### Opcode steps (R53) and the end of the fetchable half (R108) -/

/-- A byte fetched with `pend = Op` runs what it decodes to, with `pc` already advanced. -/
theorem step_of_op {s : State} (hs : s.Fetchable) (hp : s.pend = .op) :
    step s = exec (decodeOpcode (s.progRead s.pc)) s.advancePc := by
  simp only [step, fetch_admitted hs.not_stopped hs.pc_admitted, hp, decodeFetched]

/-- The step of a known opcode byte runs its instruction. -/
theorem step_of_encodeOpcode {s : State} {i : Instr} (hs : s.Fetchable) (hp : s.pend = .op)
    (hb : s.progRead s.pc = encodeOpcode i) : step s = exec i s.advancePc := by
  rw [step_of_op hs hp, hb, decodeOpcode_encodeOpcode]

theorem State.advancePc_advancePc (s : State) : s.advancePc.advancePc = s.setPc (s.pc + 2#16) := by
  rw [show (2#16 : PcWord) = 1#16 + 1#16 from rfl, ← BitVec.add_assoc]
  rfl

/-- A skip that is taken passes over the byte after it (R74). -/
theorem step_of_skipIfOdd_odd {s : State} {r : RegIdx} (hs : s.Fetchable) (hp : s.pend = .op)
    (hb : s.progRead s.pc = 0xD#4 ++ r) (hodd : (s.reg r).toNat % 2 = 1) :
    step s = .next (s.setPc (s.pc + 2#16)) := by
  have hodd' : (s.advancePc.reg r).toNat % 2 = 1 := by rwa [State.reg_advancePc]
  rw [step_of_encodeOpcode (i := .skipIfOdd r) hs hp hb, exec_skipIfOdd_of_odd hodd', State.advancePc_advancePc]

theorem admitted_signedFault_iff_le (p : PcWord) : admitted .signedFault p = true ↔ p.toNat ≤ 0x7FFF := by
  rw [admitted_signedFault_iff_bit15, getElem_15_eq_msb, BitVec.msb_eq_decide, decide_eq_false_iff_not]
  omega

/-- Under `SignedFault` a step at an upper-half address faults, whatever `pend` is (R80, R108). -/
theorem step_of_upper_half {s : State} (hs : s.stopped = false) (hpolicy : s.policy = .signedFault)
    (hpc : 0x8000 ≤ s.pc.toNat) : step s = .fault (.fetchOutOfRange (s.latchFault causeFetchOutOfRange)) := by
  refine step_of_unadmitted hs ?_
  rw [hpolicy, Bool.eq_false_iff, Ne, admitted_signedFault_iff_le]
  omega

theorem State.cont_of_not_stopped {s : State} (h : s.stopped = false) : s.cont = true := by
  rw [State.cont, h, Bool.not_false]

/-! ### The statements -/

/-- Settles O43: the skip leaves `pc + 2` with the rest framed, and the next step is an opcode step there. -/
theorem skipLandsOnImmediateByte : Obligations.SkipLandsOnImmediateByte := by
  intro s q r hs hp hskip _ hodd hadmitted
  obtain ⟨hregs, hcontrol, hmemories⟩ := s.frame_setPc (s.pc + 2#16)
  refine ⟨s.setPc (s.pc + 2#16), step_of_skipIfOdd_odd hs hp hskip hodd, rfl, hp, hregs, hcontrol, hmemories, ?_⟩
  have hlanded : (s.setPc (s.pc + 2#16)).Fetchable := ⟨hs.not_halted, hs.not_faulted, hadmitted⟩
  rw [step_of_op hlanded hp, show (3#16 : PcWord) = 2#16 + 1#16 from rfl, ← BitVec.add_assoc]
  rfl

/-- Settles O45: the target is `256 * x[4] + x[r]`, so `x[4] ≥ 0x80` puts it into the upper half, where the next step
faults. -/
theorem jumpToUpperHalfFaultsNext : Obligations.JumpToUpperHalfFaultsNext := by
  intro s r hs hpolicy hp hjump hhigh
  have hstep : step s = .next (s.advancePc.setPc (s.advancePc.jumpTarget r)) := by
    rw [step_of_encodeOpcode (i := .jump r) hs hp hjump, exec_jump]
  have htarget : 0x8000 ≤ (s.advancePc.jumpTarget r).toNat := by
    rw [State.toNat_jumpTarget, State.reg_advancePc]
    omega
  exact ⟨_, hstep, State.cont_of_not_stopped hs.not_stopped, htarget,
    _, step_of_upper_half hs.not_stopped hpolicy htarget, rfl, rfl⟩

/-- Settles O46: either step leaves `pc = 0x8000`, by one increment from 0x7FFF or two from 0x7FFE. -/
theorem lastFetchableAddressIs7FFF : Obligations.LastFetchableAddressIs7FFF := by
  refine ⟨admitted_signedFault_iff_le, fun s r hs hpolicy hp hpc hload => ?loadImm,
    fun s r hs hpolicy hp hpc hskip hodd => ?skip⟩
  case loadImm =>
    have hstep : step s = .next (s.advancePc.setPend (.imm r)) := by
      rw [step_of_encodeOpcode (i := .loadImm r) hs hp hload, exec_loadImm]
    have hend : (s.advancePc.setPend (.imm r)).pc = 0x8000#16 := congrArg (· + 1#16) hpc
    exact ⟨_, _, hstep, rfl, step_of_upper_half hs.not_stopped hpolicy (congrArg BitVec.toNat hend).ge, hend, rfl⟩
  case skip =>
    have hend : (s.setPc (s.pc + 2#16)).pc = 0x8000#16 := congrArg (· + 2#16) hpc
    exact ⟨_, _, step_of_skipIfOdd_odd hs hp hskip hodd, State.cont_of_not_stopped hs.not_stopped,
      step_of_upper_half hs.not_stopped hpolicy (congrArg BitVec.toNat hend).ge, hend⟩

/-- Settles O47: the state before the edge does not occur in the state a launch puts in place. -/
theorem resetPutsEveryReset : Obligations.ResetPutsEveryReset := by
  intro inp s h
  rw [clockEdge_of_rst h]
  exact ⟨reg_resetWith _, rfl, rfl, fun _ => rfl, rfl, rfl, rfl, progRead_resetWith _⟩

/-- Settles O48: the capacity check is the length's, the placed bytes read back, and no step writes the Program Store. -/
theorem imageLoadsUpToCapacity : Obligations.ImageLoadsUpToCapacity := by
  refine ⟨fun bytes hlen => ?fits, fun bytes hlen => imageOfBytes_of_not_fits ?tooLong,
    fun _ s a h => progRead_clockEdge h s a⟩
  case fits =>
    have hfits := (imageFits_iff bytes).2 hlen
    exact ⟨⟨bytes, hfits⟩, imageOfBytes_of_fits hfits, rfl, fun _ => progRead_resetWith _⟩
  case tooLong =>
    rw [imageFits_iff]
    omega

/-- Settles O50: an enabled edge leaves `stateAfter`, which is what the one step answers, and the state itself when the
block is stopped. -/
theorem clockEdgeResetsStepsOrHolds : Obligations.ClockEdgeResetsStepsOrHolds := by
  refine fun inp s => ⟨fun h => clockEdge_of_rst h s, fun hr he _ _ => ?steps, fun hr hold => ?holds⟩
  case steps =>
    rw [clockEdge_of_stepEn hr he]
    exact (step_answers_stateAfter s).imp (fun h => ⟨_, h, rfl⟩) (fun h => ⟨_, h, rfl⟩)
  case holds =>
    cases he : inp.stepEn with
    | false => exact clockEdge_of_not_stepEn hr he s
    | true =>
      have hstopped : s.stopped = true := by
        rw [State.stopped, Bool.or_eq_true]
        exact hold.resolve_left (by simp [he])
      rw [clockEdge_of_stepEn hr he, stateAfter_of_stopped hstopped]

end Sys2Proof.Machine
end

section
/-! Whole instructions in a byte stream (30_encoding.md sections 1 to 4, 6): decoding against encoding, the two refusals of
`decode`, and what a disassembled line assembles to. -/

namespace Sys2Proof

/-! ### Opcode bytes (R45) -/

theorem highNibble_append_lowNibble (b : Byte) : highNibble b ++ lowNibble b = b := by
  revert b
  decide

@[simp] theorem encodeOpcode_decodeOpcode (b : Byte) : encodeOpcode (decodeOpcode b) = b := by
  rw [encodeOpcode, decodeOpcode, opcodeOf_decodeFields, sel_decodeFields, highNibble_append_lowNibble]

/-! ### Data bytes (R46, R52) -/

theorem Instr.eq_loadImm_or_ne (i : Instr) : (∃ r, i = .loadImm r) ∨ ∀ r, i ≠ .loadImm r :=
  exists_or_forall_not _

@[simp] theorem dataBytes_loadImm (r : RegIdx) (d : Byte) : dataBytes (.loadImm r) d = [d] := rfl

theorem dataBytes_of_ne_loadImm {i : Instr} (h : ∀ r, i ≠ .loadImm r) (d : Byte) : dataBytes i d = [] := by
  cases i with
  | loadImm r => exact absurd rfl (h r)
  | _ => rfl

theorem length_encode (i : Instr) (d : Byte) : (encode i d).length = instrLength i := by
  cases i <;> rfl

/-! ### Decoding a byte sequence -/

@[simp] theorem decode_nil : decode [] = .error .noOpcodeByte := rfl

theorem decode_cons_of_ne_loadImm {b : Byte} (h : ∀ r, decodeOpcode b ≠ .loadImm r) (rest : List Byte) :
    decode (b :: rest) = .ok (decodeOpcode b, [], rest) := by
  rw [decode]
  split
  case h_1 r hr => exact absurd hr (h r)
  case h_2 => rfl

theorem decode_cons_cons_loadImm (r : RegIdx) (d : Byte) (rest : List Byte) :
    decode (encodeOpcode (.loadImm r) :: d :: rest) = .ok (.loadImm r, [d], rest) := by
  simp only [decode, decodeOpcode_encodeOpcode]

theorem decode_singleton_loadImm (r : RegIdx) :
    decode [encodeOpcode (.loadImm r)] = .error (.noDataByte r) := by
  simp only [decode, decodeOpcode_encodeOpcode]

theorem decode_encode_append (i : Instr) (d : Byte) (rest : List Byte) :
    decode (encode i d ++ rest) = .ok (i, dataBytes i d, rest) := by
  rcases i.eq_loadImm_or_ne with ⟨r, rfl⟩ | hne
  · exact decode_cons_cons_loadImm r d rest
  · have hne' : ∀ r, decodeOpcode (encodeOpcode i) ≠ .loadImm r := by simpa using hne
    rw [encode, dataBytes_of_ne_loadImm hne, List.singleton_append, decode_cons_of_ne_loadImm hne',
      decodeOpcode_encodeOpcode]

/-- A byte sequence is empty, a lone LOAD-IMM opcode byte, or begins with a whole instruction. -/
theorem bytes_cases (bytes : List Byte) :
    bytes = [] ∨ (∃ r, bytes = [encodeOpcode (.loadImm r)]) ∨ ∃ i d rest, bytes = encode i d ++ rest := by
  rcases bytes with _ | ⟨b, rest⟩
  · exact .inl rfl
  rcases (decodeOpcode b).eq_loadImm_or_ne with ⟨r, hr⟩ | hne
  · have hb : b = encodeOpcode (.loadImm r) := by rw [← hr, encodeOpcode_decodeOpcode]
    rcases rest with _ | ⟨d, rest⟩
    · exact .inr (.inl ⟨r, by rw [hb]⟩)
    · exact .inr (.inr ⟨.loadImm r, d, rest, by rw [hb]; rfl⟩)
  · refine .inr (.inr ⟨decodeOpcode b, 0x00#8, rest, ?_⟩)
    rw [encode, dataBytes_of_ne_loadImm hne, encodeOpcode_decodeOpcode, List.singleton_append]

/-! ### The statements on bytes -/

/-- Settles O5: the two fields of an opcode byte determine it and are determined by it, and the data byte is there exactly
for LOAD-IMM. -/
theorem decodeInvertsEncode : Obligations.DecodeInvertsEncode :=
  ⟨fun i d rest _ => ⟨decode_encode_append i d rest, length_encode i d⟩, dataBytes_loadImm,
    fun _ d h => dataBytes_of_ne_loadImm h d, encodeOpcode_decodeOpcode, decodeOpcode_encodeOpcode⟩

/-- Settles O6: each of the three forms a byte sequence can take has its own answer. -/
theorem decodeRefusesOnlyMissingBytes : Obligations.DecodeRefusesOnlyMissingBytes := by
  refine fun bytes => ⟨⟨fun h => ?empty, by rintro rfl; rfl⟩,
    fun r => ⟨fun h => ?lone, by rintro rfl; exact decode_singleton_loadImm r⟩, fun hlen => ?whole⟩
  case empty =>
    rcases bytes_cases bytes with rfl | ⟨r, rfl⟩ | ⟨i, d, rest, rfl⟩
    · rfl
    · simp [decode_singleton_loadImm] at h
    · simp [decode_encode_append] at h
  case lone =>
    rcases bytes_cases bytes with rfl | ⟨r', rfl⟩ | ⟨i, d, rest, rfl⟩
    · simp at h
    · obtain rfl : r' = r := by simpa [decode_singleton_loadImm] using h
      rfl
    · simp [decode_encode_append] at h
  case whole =>
    rcases bytes_cases bytes with rfl | ⟨r, rfl⟩ | ⟨i, d, rest, rfl⟩
    · simp at hlen
    · simp at hlen
    · exact ⟨i, dataBytes i d, rest, decode_encode_append i d rest, rfl⟩

/-- Settles O1: every row of the table reads its own encoding back. -/
theorem opcodeMapDecodesEveryRow : Obligations.OpcodeMapDecodesEveryRow := fun r =>
  ⟨decodeOpcode_encodeOpcode (.nop r), decodeOpcode_encodeOpcode (.loadImm r), decodeOpcode_encodeOpcode (.loadMem r),
    decodeOpcode_encodeOpcode (.storeMem r), decodeOpcode_encodeOpcode (.swapMove r),
    decodeOpcode_encodeOpcode (.shl r), decodeOpcode_encodeOpcode (.notOp r), decodeOpcode_encodeOpcode (.orOp r),
    decodeOpcode_encodeOpcode (.andOp r), decodeOpcode_encodeOpcode (.xorOp r), decodeOpcode_encodeOpcode (.add r),
    decodeOpcode_encodeOpcode (.sub r), decodeOpcode_encodeOpcode (.cmp r), decodeOpcode_encodeOpcode (.skipIfOdd r),
    decodeOpcode_encodeOpcode (.jump r), decodeOpcode_encodeOpcode (.unrecognized r)⟩

/-- Settles O2: ten closed rows of the test table. -/
theorem writtenBytesDecodeAsTabled : Obligations.WrittenBytesDecodeAsTabled := by
  unfold Obligations.WrittenBytesDecodeAsTabled
  decide

end Sys2Proof

namespace Sys2Proof.Machine

/-! ### What a disassembled line stands for (R57) -/

/-- The instruction a printed line stands for: `NOP` and `HALT` lose the selector that their operations ignore. -/
def printedInstr : Instr → Instr
  | .nop _ => .nop 0#4
  | .unrecognized _ => .unrecognized 0#4
  | i => i

theorem printedInstr_of_ne {i : Instr} (hnop : ∀ r, i ≠ .nop r) (hhalt : ∀ r, i ≠ .unrecognized r) :
    printedInstr i = i := by
  cases i with
  | nop r => exact absurd rfl (hnop r)
  | unrecognized r => exact absurd rfl (hhalt r)
  | _ => rfl

theorem dataBytes_printedInstr (i : Instr) (d : Byte) : dataBytes (printedInstr i) d = dataBytes i d := by
  cases i <;> rfl

theorem exec_printedInstr (i : Instr) (s : State) : exec (printedInstr i) s = exec i s := by
  cases i <;> rfl

theorem assembleLine_disassemble (i : Instr) (d : Byte) :
    assembleLine (disassemble i d) = encode (printedInstr i) d := by
  cases i <;> rfl

theorem encodeOpcode_nop_zero : encodeOpcode (.nop 0#4) = 0x00#8 := by decide

theorem encodeOpcode_unrecognized_zero : encodeOpcode (.unrecognized 0#4) = 0xF0#8 := by decide

/-- Settles O7: a printed line assembles to the encoding of `printedInstr`, which runs as the instruction does. -/
theorem disassemblyKeepsBehaviour : Obligations.DisassemblyKeepsBehaviour := by
  intro i d
  rw [assembleLine_disassemble]
  refine ⟨printedInstr i, ?decodes, exec_printedInstr i, fun hnop hhalt => by rw [printedInstr_of_ne hnop hhalt],
    ?nop, ?halt⟩
  case decodes =>
    rw [← dataBytes_printedInstr, ← decode_encode_append, List.append_nil]
  case nop =>
    rintro ⟨r, rfl⟩
    exact congrArg ([·]) encodeOpcode_nop_zero
  case halt =>
    rintro ⟨r, rfl⟩
    exact congrArg ([·]) encodeOpcode_unrecognized_zero

end Sys2Proof.Machine
end

section
/-! What a meaning and a step leave unchanged (10_state.md, 20_memory.md sections 1 and 4, 43_control.md): which instruction
writes which field, the two disjoint address spaces, and the integer laws of the ALU. -/

namespace Sys2Proof.Machine

/-! ### Which instruction writes which field -/

/-- Settles O32: each of the updates a meaning can make writes one field, and is made by the instructions named for it. -/
theorem onlyNamedInstructionsWrite : Obligations.OnlyNamedInstructionsWrite := by
  intro i s t h
  rcases exec_next_cases h with rfl | ⟨r, rfl, rfl⟩ | ⟨r, rfl, rfl⟩ | ⟨r, v, rfl⟩ | ⟨r, rfl, rfl⟩ |
    ⟨r, rfl, -, rfl⟩ | ⟨r, rfl, rfl⟩ | ⟨r, rfl, rfl⟩
  · exact ⟨fun _ _ => rfl, fun _ => rfl, fun _ => rfl, fun _ => rfl, rfl, rfl, rfl, rfl⟩
  · exact ⟨fun _ _ => rfl, fun hne => absurd rfl (hne r), fun _ => rfl, fun _ => rfl, rfl, rfl, rfl, rfl⟩
  · exact ⟨fun _ _ => rfl, fun _ => rfl, fun hne => absurd rfl (hne r), fun _ => rfl, rfl, rfl, rfl, rfl⟩
  · exact ⟨fun _ _ => rfl, fun _ => rfl, fun _ => rfl, fun _ => rfl, rfl, rfl, rfl, rfl⟩
  · exact ⟨fun _ _ => rfl, fun _ => rfl, fun _ => rfl, fun _ => rfl, rfl, rfl, rfl, rfl⟩
  · exact ⟨fun hne _ => absurd rfl (hne r), fun _ => rfl, fun _ => rfl, fun _ => rfl, rfl, rfl, rfl, rfl⟩
  · exact ⟨fun _ hne => absurd rfl (hne r), fun _ => rfl, fun _ => rfl, fun _ => rfl, rfl, rfl, rfl, rfl⟩
  · exact ⟨fun _ _ => rfl, fun _ => rfl, fun _ => rfl, fun hne => absurd rfl (hne r), rfl, rfl, rfl, rfl⟩

section
variable {i : Instr} {s t : State} (h : exec i s = .next t)
include h

theorem exec_keeps_pc (hskip : ∀ r, i ≠ .skipIfOdd r) (hjump : ∀ r, i ≠ .jump r) : t.pc = s.pc := by
  obtain ⟨hpc, -⟩ := onlyNamedInstructionsWrite i s t h
  exact hpc hskip hjump

theorem exec_keeps_pend (hload : ∀ r, i ≠ .loadImm r) : t.pend = s.pend := by
  obtain ⟨-, hpend, -⟩ := onlyNamedInstructionsWrite i s t h
  exact hpend hload

theorem exec_keeps_dmem (hstore : ∀ r, i ≠ .storeMem r) : t.dmem = s.dmem := by
  obtain ⟨-, -, hdmem, -⟩ := onlyNamedInstructionsWrite i s t h
  exact hdmem hstore

theorem exec_keeps_halted (hne : ∀ r, i ≠ .unrecognized r) : t.halted = s.halted := by
  obtain ⟨-, -, -, hhalted, -⟩ := onlyNamedInstructionsWrite i s t h
  exact hhalted hne

theorem exec_keeps_fault : t.faulted = s.faulted ∧ t.faultCause = s.faultCause := by
  obtain ⟨-, -, -, -, hfaulted, hcause, -, -⟩ := onlyNamedInstructionsWrite i s t h
  exact ⟨hfaulted, hcause⟩

end

/-! ### The Working Memory -/

theorem State.memRead_eq_of_dmem_eq {s t : State} (h : t.dmem = s.dmem) (a : Byte) : t.memRead a = s.memRead a :=
  congrArg (Memory.read · a.toNat) h

/-- Settles O37: `Memory.read_write` and `Memory.write_wf` at a Working Memory address. -/
theorem workingMemoryReadsLastWrite : Obligations.WorkingMemoryReadsLastWrite := by
  intro s a b v
  refine ⟨?same, fun hne => ?other, rfl, rfl, fun hwf => Memory.write_wf hwf a.isLt⟩
  case same => rw [State.memRead_memWrite, if_pos rfl]
  case other => rw [State.memRead_memWrite, if_neg hne]

/-- Settles O33: a data byte and every other instruction leave the memory as it is, and a STORE-MEM leaves every address
but its own. -/
theorem onlyStoreStepChangesWorkingMemory : Obligations.OnlyStoreStepChangesWorkingMemory := by
  intro s t a h hchanged
  rcases step_next_cases h with ⟨-, rfl⟩ | ⟨-, -, r, -, rfl⟩ | ⟨hs, ha, hp, hexec⟩
  · exact absurd rfl hchanged
  · exact absurd rfl hchanged
  · obtain ⟨hhalted, hfaulted⟩ := State.stopped_eq_false.1 hs
    rcases exists_or_forall_not fun r => decodeOpcode (s.progRead s.pc) = .storeMem r with ⟨r, hr⟩ | hne
    · rw [hr, exec_storeMem] at hexec
      cases hexec
      have haddr : a = s.advancePc.ramAddr := by
        by_contra hne
        exact hchanged (by rw [State.memRead_memWrite, if_neg hne, State.memRead_advancePc])
      refine ⟨⟨hhalted, hfaulted, ha⟩, hp, r, hr, haddr.symm, ?_⟩
      rw [State.memRead_memWrite, if_pos haddr, State.reg_advancePc]
    · exact absurd (State.memRead_eq_of_dmem_eq (exec_keeps_dmem hexec hne) a) hchanged

/-! ### The address spaces (R27) -/

/-- An instruction's effect, with another Program Store attached. -/
theorem exec_with_prog {i : Instr} {s t : State} (h : exec i s = .next t) (m : Memory) :
    exec i { s with prog := m } = .next { t with prog := m } := by
  cases i with
  | cmp r =>
    rcases Nat.lt_or_ge (s.reg 1#4).toNat (s.reg 0#4).toNat with hgt | hle
    · rw [exec_cmp_of_gt hgt] at h
      cases h
      exact exec_cmp_of_gt (s := { s with prog := m }) hgt r
    · rw [exec_cmp_of_le hle] at h
      cases h
      exact exec_cmp_of_le (s := { s with prog := m }) hle r
  | skipIfOdd r =>
    rcases Nat.mod_two_eq_zero_or_one (s.reg r).toNat with heven | hodd
    · rw [exec_skipIfOdd_of_even heven] at h
      cases h
      exact exec_skipIfOdd_of_even (s := { s with prog := m }) heven
    · rw [exec_skipIfOdd_of_odd hodd] at h
      cases h
      exact exec_skipIfOdd_of_odd (s := { s with prog := m }) hodd
  | _ =>
    cases h
    rfl

/-- Settles O36: no meaning looks at the Program Store, and no branch of the fetch at the Working Memory. -/
theorem addressSpacesAreDisjoint : Obligations.AddressSpacesAreDisjoint := by
  refine ⟨fun i s t m h => exec_with_prog h m, fun s m => ?_⟩
  rcases fetch_cases s with ⟨hs, hf⟩ | ⟨hs, ha, hf⟩ | ⟨hs, ha, hf⟩
  · rw [hf]
    exact fetch_stopped (s := { s with dmem := m }) hs
  · rw [hf]
    exact fetch_unadmitted (s := { s with dmem := m }) hs ha
  · rw [hf]
    exact fetch_admitted (s := { s with dmem := m }) hs ha

/-! ### The ALU (R72) -/

theorem aluAdd_toInt (a b : Byte) : (aluAdd a b).toInt = (a.toInt + b.toInt).bmod 256 := by
  rw [aluAdd_eq, BitVec.toInt_add]

theorem aluSub_toInt (a b : Byte) : (aluSub a b).toInt = (a.toInt - b.toInt).bmod 256 := by
  rw [aluSub_eq, BitVec.toInt_sub]

/-- Settles O38: `trunc8` of an exact result is the bit vector operation, whose two readings the library gives. -/
theorem aluObeysIntegerLaws : Obligations.AluObeysIntegerLaws := fun a b =>
  ⟨aluAdd_toNat a b, aluAdd_toInt a b, aluSub_toNat a b, aluSub_toInt a b, aluShl_toNat a, gtUnsigned_iff a b,
    fun k hk => ⟨getLsbD_aluOr a b k, getLsbD_aluAnd a b k, getLsbD_aluXor a b k, getLsbD_aluNot a hk⟩⟩

/-! ### Repeated SHL (R64) -/

theorem State.setReg_setReg (s : State) (d : RegIdx) (v w : Byte) : (s.setReg d v).setReg d w = s.setReg d w := by
  simp only [State.setReg, Vector.set_set]

theorem State.setReg_reg_self (s : State) (d : RegIdx) : s.setReg d (s.reg d) = s := by
  simp only [State.setReg, State.reg, Vector.set_getElem_self]

/-- `n` shifts by one are one shift by `n`. -/
theorem execAll_replicate_shl (n : Nat) (s : State) (d : RegIdx) :
    execAll (List.replicate n (.shl d)) s = .next (s.setReg d (s.reg d <<< n)) := by
  induction n generalizing s with
  | zero => rw [List.replicate_zero, execAll_nil, BitVec.shiftLeft_zero, State.setReg_reg_self]
  | succ n ih =>
    rw [List.replicate_succ, execAll_cons_of_next (exec_shl d s), ih, State.setReg_setReg, State.reg_setReg_same,
      aluShl_eq_shiftLeft, ← BitVec.shiftLeft_add, Nat.add_comm 1 n]

/-- Settles O21: a shift by the whole width leaves 0x00. -/
theorem eightShiftsClearRegister : Obligations.EightShiftsClearRegister := by
  intro s d
  refine ⟨_, execAll_replicate_shl 8 s d, ?_, s.onlyRegs_setReg d _⟩
  rw [State.reg_setReg_same, BitVec.shiftLeft_eq_zero le_rfl]

end Sys2Proof.Machine
end

section
/-! The order of a step's checks and the ways it ends (30_encoding.md section 5, 60_exceptions.md), and the program counter
of every step (10_state.md section 3). -/

namespace Sys2Proof.Machine

theorem State.stopped_eq_true {s : State} : s.stopped = true ↔ s.halted = true ∨ s.faulted = true := by
  rw [State.stopped, Bool.or_eq_true]

theorem State.cont_of_stopped {s : State} (h : s.stopped = true) : s.cont = false := by
  rw [State.cont, h, Bool.not_true]

/-! ### How an admitted step ends -/

/-- The next step of an admitted fetch decodes a byte 0xF0 to 0xFF (R50, R76): read with `pend = Imm(r)` it is data. -/
def State.HaltsNext (s : State) : Prop := s.pend = .op ∧ 0xF0 ≤ (s.progRead s.pc).toNat

theorem State.haltsNext_of_decode {s : State} {r : RegIdx} (hp : s.pend = .op)
    (hr : decodeOpcode (s.progRead s.pc) = .unrecognized r) : s.HaltsNext :=
  ⟨hp, (decodeOpcode_eq_unrecognized_iff _).1 ⟨r, hr⟩⟩

theorem step_of_haltsNext {s : State} (hs : s.Fetchable) (h : s.HaltsNext) : step s = .next s.advancePc.setHalted := by
  obtain ⟨hp, hbyte⟩ := h
  obtain ⟨r, hr⟩ := (decodeOpcode_eq_unrecognized_iff _).2 hbyte
  rw [step_of_op hs hp, hr, exec_unrecognized]

/-- A data byte, or an opcode byte below 0xF0, completes its step without a latch. -/
theorem step_of_not_haltsNext {s : State} (hs : s.Fetchable) (h : ¬ s.HaltsNext) :
    ∃ t, step s = .next t ∧ t.halted = false ∧ t.faulted = false ∧ t.faultCause = s.faultCause := by
  cases hp : s.pend with
  | imm r => exact ⟨_, step_of_pending hs hp, hs.not_halted, hs.not_faulted, rfl⟩
  | op =>
    obtain ⟨t, ht⟩ := exec_answers_next (decodeOpcode (s.progRead s.pc)) s.advancePc
    obtain ⟨hfaulted, hcause⟩ := exec_keeps_fault ht
    have hhalted := exec_keeps_halted ht fun r hr => h (State.haltsNext_of_decode hp hr)
    exact ⟨t, (step_of_op hs hp).trans ht, hhalted.trans hs.not_halted, hfaulted.trans hs.not_faulted, hcause⟩

/-- What a block that is not stopped does next: fault, halt, or complete without a latch. -/
theorem step_ends {s : State} (hs : s.stopped = false) :
    (admitted s.policy s.pc = false ∧ step s = .fault (.fetchOutOfRange (s.latchFault causeFetchOutOfRange))) ∨
    (s.Fetchable ∧ s.HaltsNext ∧ step s = .next s.advancePc.setHalted) ∨
    (s.Fetchable ∧ ¬ s.HaltsNext ∧
      ∃ t, step s = .next t ∧ t.halted = false ∧ t.faulted = false ∧ t.faultCause = s.faultCause) := by
  cases ha : admitted s.policy s.pc with
  | false => exact .inl ⟨rfl, step_of_unadmitted hs ha⟩
  | true =>
    obtain ⟨hhalted, hfaulted⟩ := State.stopped_eq_false.1 hs
    have hfetch : s.Fetchable := ⟨hhalted, hfaulted, ha⟩
    by_cases h : s.HaltsNext
    · exact .inr (.inl ⟨hfetch, h, step_of_haltsNext hfetch h⟩)
    · exact .inr (.inr ⟨hfetch, h, step_of_not_haltsNext hfetch h⟩)

/-! ### The statements -/

/-- Settles O8: the opcode branch of the step. -/
theorem stepRunsDecodedInstruction : Obligations.StepRunsDecodedInstruction := by
  rintro s _ hs hp rfl
  exact step_of_op hs hp

/-- Settles O9: one clause for each branch of the step. -/
theorem stepChecksInOrder : Obligations.StepChecksInOrder := by
  refine fun s => ⟨fun h => step_of_stopped (State.stopped_eq_true.2 h),
    fun hh hf ha => step_of_unadmitted (State.stopped_eq_false.2 ⟨hh, hf⟩) ha,
    fun hs r hp => ?data, fun hs hp hbyte => step_of_haltsNext hs ⟨hp, hbyte⟩, fun hs hp hbyte => ?runs⟩
  case data =>
    exact ⟨_, step_of_pending hs hp, hs.not_halted, hs.not_faulted, rfl, s.advancePc.reg_setReg_same r _⟩
  case runs =>
    have hruns : ¬ s.HaltsNext := fun ⟨_, hge⟩ => Nat.not_le.2 hbyte hge
    obtain ⟨t, ht, hhalted, hfaulted, -⟩ := step_of_not_haltsNext hs hruns
    exact ⟨t, ht, (step_of_op hs hp).symm.trans ht, hhalted, hfaulted⟩

/-- Settles O10: the three ends of `step_ends`, read off the latches. -/
theorem stepEndsInOneOfThreeWays : Obligations.StepEndsInOneOfThreeWays := by
  intro s hs
  rcases step_ends hs with ⟨-, h⟩ | ⟨hfetch, -, h⟩ | ⟨-, -, t, h, hhalted, hfaulted, -⟩
  · exact .inr (.inr ⟨_, h, rfl, (State.stopped_eq_false.1 hs).1, s.cont_latchFault _⟩)
  · exact .inr (.inl ⟨_, h, rfl, hfetch.not_faulted, rfl⟩)
  · exact .inl ⟨t, h, State.cont_of_not_stopped (State.stopped_eq_false.2 ⟨hhalted, hfaulted⟩)⟩

theorem stateAfter_of_next {s t : State} (h : step s = .next t) : stateAfter s = t := by
  simp only [stateAfter, h]

theorem stateAfter_of_fault {s t : State} (h : step s = .fault (.fetchOutOfRange t)) : stateAfter s = t := by
  simp only [stateAfter, h]

theorem stopped_of_step_fault {s t : State} (h : step s = .fault (.fetchOutOfRange t)) : t.stopped = true := by
  obtain ⟨-, -, hf⟩ := step_fault_cases h
  cases hf
  exact State.stopped_eq_true.2 (.inr rfl)

theorem clockEdge_of_stopped {s : State} (h : s.stopped = true) (inp : Inputs) :
    clockEdge inp s = if inp.rst then resetWith inp.launch else s := by
  rw [clockEdge, stateAfter_of_stopped h, ite_self]

/-- Settles O13: either latch makes the state stopped, and a stopped state is a fixed point of the step. -/
theorem haltAndFaultLatchUntilReset : Obligations.HaltAndFaultLatchUntilReset := by
  refine ⟨fun _ _ => stopped_of_step_fault, fun s r hs hp hr => ?_, fun s h => ⟨step_of_stopped h, clockEdge_of_stopped h⟩⟩
  rw [stateAfter_of_next (step_of_haltsNext hs (State.haltsNext_of_decode hp hr))]
  rfl

/-- Settles O31: the one update sets the halt latch, which stops the block. -/
theorem unrecognizedOpcodeHalts : Obligations.UnrecognizedOpcodeHalts := fun s sel =>
  ⟨decodeOpcode_encodeOpcode (.unrecognized sel), s.setHalted, exec_unrecognized sel s, rfl, State.cont_of_stopped rfl,
    rfl, fun _ _ => rfl, rfl, rfl, rfl, rfl, ⟨fun _ => rfl, fun _ => rfl⟩, step_of_stopped rfl⟩

/-- Settles O42: `pend` chooses the branch, at one address and one byte. -/
theorem pathDecidesOpcodeOrData : Obligations.PathDecidesOpcodeOrData := by
  intro s r hs hbyte
  have hfetch (p : Pend) : (s.setPend p).Fetchable := ⟨hs.not_halted, hs.not_faulted, hs.pc_admitted⟩
  exact ⟨⟨_, step_of_haltsNext (hfetch .op) ⟨rfl, hbyte⟩, rfl⟩,
    ⟨_, step_of_pending (hfetch (.imm r)) rfl, hs.not_halted, State.reg_setReg_same _ r _⟩⟩

/-- Settles O14: the fetch has advanced `pc` by one, and only SKIP-IF-ODD and JUMP write it again. -/
theorem stepMovesPcModulo65536 : Obligations.StepMovesPcModulo65536 := by
  intro s t hs h
  refine ⟨fun r hp => ?data, fun hp i hi => ?opcode⟩
  case data =>
    rw [step_of_pending hs hp] at h
    cases h
    exact s.toNat_pc_advancePc
  case opcode =>
    rw [step_of_op hs hp, hi] at h
    have hone := s.toNat_pc_advancePc
    refine ⟨?skip, ?jump, fun hskip hjump => by rw [exec_keeps_pc h hskip hjump, hone]⟩
    case skip =>
      rintro r rfl
      rcases Nat.mod_two_eq_zero_or_one (s.reg r).toNat with heven | hodd
      · rw [exec_skipIfOdd_of_even (s := s.advancePc) heven] at h
        cases h
        rw [hone, heven, Nat.add_zero]
      · rw [exec_skipIfOdd_of_odd (s := s.advancePc) hodd] at h
        cases h
        rw [State.toNat_pc_advancePc, hone, hodd, Nat.mod_add_mod]
    case jump =>
      rintro r rfl
      rw [exec_jump] at h
      cases h
      exact s.advancePc.toNat_jumpTarget r

end Sys2Proof.Machine
end

section
/-! The invariant (10_state.md sections 4, 6 and 7, 60_exceptions.md section 1): it holds wherever a run starts, and every
step and every clock edge keeps it. -/

namespace Sys2Proof.Machine

/-! ### The invariant of a state without a fault -/

theorem State.inv_of_not_faulted {s : State} (hdmem : s.dmem.wf Config.dmemSize) (hprog : s.prog.wf Config.progSize)
    (hfaulted : s.faulted = false) (hcause : s.faultCause = 0#2) (hop : s.halted = true → s.pend = .op) : s.Inv where
  dmem_wf := hdmem
  prog_wf := hprog
  one_latch := fun ⟨_, hf⟩ => Bool.false_ne_true (hfaulted.symm.trans hf)
  cause := by rw [hfaulted, if_neg Bool.false_ne_true, hcause]
  halted_op := hop
  faulted_pc := fun hf => absurd (hfaulted.symm.trans hf) Bool.false_ne_true

theorem State.Inv.faultCause_of_not_faulted {s : State} (hi : s.Inv) (h : s.faulted = false) : s.faultCause = 0#2 := by
  rw [hi.cause, h, if_neg Bool.false_ne_true]

/-! ### Where a run starts -/

theorem Memory.wf_nil (size : Nat) : Memory.wf size [] :=
  ⟨List.Pairwise.nil, fun _ hc => absurd hc List.not_mem_nil⟩

theorem State.inv_launch {prog : Memory} (hprog : prog.wf Config.progSize) (policy : PcFetchPolicy) :
    (State.launch prog policy).Inv :=
  State.inv_of_not_faulted (Memory.wf_nil _) hprog rfl rfl fun _ => rfl

/-- Settles O39: the launch of the empty Program Store. -/
theorem resetMeetsInvariant : Obligations.ResetMeetsInvariant := State.inv_launch (Memory.wf_nil _) _

/-- Settles O40: an image that fits is placed in canonical form. -/
theorem everyLaunchMeetsInvariant : Obligations.EveryLaunchMeetsInvariant := fun p =>
  State.inv_launch (Memory.ofBytes_wf ((imageFits_iff _).1 p.image.fits)) p.policy

/-! ### What a step keeps -/

/-- An instruction run with `pend = Op` can set the halt latch, and then it leaves `pend` as it is. -/
theorem exec_keeps_inv {i : Instr} {s t : State} (h : exec i s = .next t) (hi : s.Inv) (hs : s.stopped = false)
    (hp : s.pend = .op) : t.Inv := by
  obtain ⟨hnotHalted, hnotFaulted⟩ := State.stopped_eq_false.1 hs
  obtain ⟨hprog, -⟩ := exec_keeps_launch h
  obtain ⟨hfaulted, hcause⟩ := exec_keeps_fault h
  have hop : t.halted = true → t.pend = .op := by
    intro hhalted
    rcases i.eq_loadImm_or_ne with ⟨r, rfl⟩ | hne
    · cases h
      exact absurd (hnotHalted.symm.trans hhalted) Bool.false_ne_true
    · rw [exec_keeps_pend h hne, hp]
  exact State.inv_of_not_faulted (exec_keeps_dmem_wf h hi.dmem_wf) (hprog ▸ hi.prog_wf) (hfaulted.trans hnotFaulted)
    (hcause.trans (hi.faultCause_of_not_faulted hnotFaulted)) hop

theorem State.Inv.advancePc {s : State} (hi : s.Inv) (hs : s.stopped = false) : s.advancePc.Inv := by
  obtain ⟨-, hfaulted⟩ := State.stopped_eq_false.1 hs
  exact State.inv_of_not_faulted hi.dmem_wf hi.prog_wf hfaulted (hi.faultCause_of_not_faulted hfaulted) hi.halted_op

theorem step_next_keeps_inv {s t : State} (hi : s.Inv) (h : step s = .next t) : t.Inv := by
  rcases step_next_cases h with ⟨-, rfl⟩ | ⟨hs, -, r, -, rfl⟩ | ⟨hs, -, hp, hexec⟩
  · exact hi
  · obtain ⟨-, hfaulted⟩ := State.stopped_eq_false.1 hs
    exact State.inv_of_not_faulted hi.dmem_wf hi.prog_wf hfaulted (hi.faultCause_of_not_faulted hfaulted) fun _ => rfl
  · exact exec_keeps_inv hexec (hi.advancePc hs) hs hp

/-- A fault latches an address that was not admitted, in a block with no latch set. -/
theorem step_fault_keeps_inv {s t : State} (hi : s.Inv) (h : step s = .fault (.fetchOutOfRange t)) : t.Inv := by
  obtain ⟨hs, ha, hf⟩ := step_fault_cases h
  obtain ⟨hhalted, -⟩ := State.stopped_eq_false.1 hs
  cases hf
  exact {
    dmem_wf := hi.dmem_wf
    prog_wf := hi.prog_wf
    one_latch := fun ⟨hh, _⟩ => Bool.false_ne_true (hhalted.symm.trans hh)
    cause := rfl
    halted_op := hi.halted_op
    faulted_pc := fun _ => ha }

theorem inv_stateAfter {s : State} (hi : s.Inv) : (stateAfter s).Inv :=
  (step_answers_stateAfter s).elim (step_next_keeps_inv hi) (step_fault_keeps_inv hi)

theorem inv_clockEdge (inp : Inputs) {s : State} (hi : s.Inv) : (clockEdge inp s).Inv := by
  rw [clockEdge]
  split
  · exact everyLaunchMeetsInvariant inp.launch
  · split
    · exact inv_stateAfter hi
    · exact hi

/-- Settles O41: the completed step, the fault and the clock edge, each by its own lemma. -/
theorem stepKeepsInvariant : Obligations.StepKeepsInvariant :=
  ⟨fun _ _ hi h => h.elim (step_next_keeps_inv hi) (step_fault_keeps_inv hi), fun inp _ => inv_clockEdge inp⟩

end Sys2Proof.Machine
end

section
/-! Runs of several steps: what a load reads (20_memory.md section 4, 70_reset_and_hazards.md section 3), the zero padding
(70_reset_and_hazards.md section 3), and how a run ends (70_reset_and_hazards.md section 2). -/

namespace Sys2Proof.Machine

/-! ### Reasoning about `core.run` -/

/-- A run ends in a next state exactly when its first step does and the rest of the run does. -/
theorem run_succ_eq_next {k : Nat} {s u : State} (h : core.run (k + 1) s = .next u) :
    ∃ t, step s = .next t ∧ core.run k t = .next u := by
  rcases hstep : step s with t | f | r
  · exact ⟨t, rfl, by rwa [run_succ_of_next k hstep] at h⟩
  · rw [run_succ_of_fault k hstep] at h
    cases h
  · exact absurd hstep (step_ne_refused s r)

/-- What every completed step keeps, a run keeps. -/
theorem run_keeps {P : State → Prop} (hstep : ∀ s t, P s → step s = .next t → P t) {k : Nat} {s u : State} (hs : P s)
    (h : core.run k s = .next u) : P u := by
  induction k generalizing s with
  | zero =>
    cases h
    exact hs
  | succ k ih =>
    obtain ⟨t, hst, ht⟩ := run_succ_eq_next h
    exact ih (hstep s t hs hst) ht

/-- A run goes on from the state it has reached. -/
theorem run_add_of_next {k : Nat} {s t : State} (h : core.run k s = .next t) (m : Nat) :
    core.run (k + m) s = core.run m t := by
  induction k generalizing s with
  | zero =>
    cases h
    rw [Nat.zero_add]
  | succ k ih =>
    obtain ⟨v, hsv, hv⟩ := run_succ_eq_next h
    rw [Nat.succ_add, run_succ_of_next _ hsv, ih hv]

/-- A faulted run reached, by steps that completed, the state whose step faults. -/
theorem run_eq_fault {k : Nat} {s : State} {f : Fault} (h : core.run k s = .fault f) :
    ∃ j v, j < k ∧ core.run j s = .next v ∧ step v = .fault f := by
  induction k generalizing s with
  | zero => cases h
  | succ k ih =>
    rcases hstep : step s with t | g | r
    · rw [run_succ_of_next k hstep] at h
      obtain ⟨j, v, hj, hrun, hv⟩ := ih h
      exact ⟨j + 1, v, Nat.succ_lt_succ hj, (run_succ_of_next j hstep).trans hrun, hv⟩
    · rw [run_succ_of_fault k hstep] at h
      cases h
      exact ⟨0, s, Nat.succ_pos k, run_zero s, hstep⟩
    · exact absurd hstep (step_ne_refused s r)

theorem run_of_reaches_fault {j k : Nat} {s v : State} {f : Fault} (hjk : j < k) (hrun : core.run j s = .next v)
    (hv : step v = .fault f) : core.run k s = .fault f := by
  obtain ⟨m, rfl⟩ := Nat.exists_eq_add_of_lt hjk
  rw [Nat.add_assoc, run_add_of_next hrun, run_succ_of_fault m hv]

theorem run_ne_refused (k : Nat) (s : State) (r : Refusal) : core.run k s ≠ .refused r := by
  induction k generalizing s with
  | zero => exact fun h => by cases h
  | succ k ih =>
    rcases hstep : step s with t | f | r'
    · rw [run_succ_of_next k hstep]
      exact ih t
    · rw [run_succ_of_fault k hstep]
      exact fun h => by cases h
    · exact absurd hstep (step_ne_refused s r')

/-! ### Loads (R38) -/

theorem memRead_of_not_storesTo {s t : State} {a : Byte} (h : step s = .next t) (hno : ¬ s.StoresTo a) :
    t.memRead a = s.memRead a := by
  by_contra hchanged
  obtain ⟨hs, hp, r, hr, haddr, -⟩ := onlyStoreStepChangesWorkingMemory s t a h hchanged
  exact hno ⟨hs, hp, ⟨r, hr⟩, haddr⟩

theorem NoStoreTo.tail {a : Byte} {k : Nat} {s t : State} (hno : NoStoreTo a (k + 1) s) (h : step s = .next t) :
    NoStoreTo a k t := fun j hj v hv =>
  hno (j + 1) (Nat.succ_lt_succ hj) v ((run_succ_of_next j h).trans hv)

/-- A run without a store at `a` leaves the byte there. -/
theorem run_keeps_memRead {a : Byte} {k : Nat} {s u : State} (h : core.run k s = .next u) (hno : NoStoreTo a k s) :
    u.memRead a = s.memRead a := by
  induction k generalizing s with
  | zero =>
    cases h
    rfl
  | succ k ih =>
    obtain ⟨t, hst, ht⟩ := run_succ_eq_next h
    rw [ih ht (hno.tail hst), memRead_of_not_storesTo hst (hno 0 (Nat.succ_pos k) s (run_zero s))]

theorem step_of_storeMem {s : State} {r : RegIdx} (hs : s.Fetchable) (hp : s.pend = .op)
    (hr : decodeOpcode (s.progRead s.pc) = .storeMem r) :
    step s = .next (s.advancePc.memWrite (s.reg 2#4) (s.reg r)) := by
  rw [step_of_op hs hp, hr]
  rfl

theorem step_of_loadMem {s : State} {d : RegIdx} (hs : s.Fetchable) (hp : s.pend = .op)
    (hd : decodeOpcode (s.progRead s.pc) = .loadMem d) :
    step s = .next (s.advancePc.setReg d (s.memRead (s.reg 2#4))) := by
  rw [step_of_op hs hp, hd]
  rfl

theorem run_keeps_progRead {k : Nat} {s u : State} (h : core.run k s = .next u) (a : PcWord) :
    u.progRead a = s.progRead a :=
  run_keeps (P := fun v => v.progRead a = s.progRead a)
    (fun _ _ hv hstep => (State.progRead_eq_of_prog_eq (step_next_keeps_launch hstep).1 a).trans hv) rfl h

/-- Settles O34: the byte a store or a reset leaves stays through the steps between, and the image through all steps. -/
theorem loadReturnsLastStoredByte : Obligations.LoadReturnsLastStoredByte := by
  refine ⟨fun s t u r d k hs hp hr hst hrun hno hu hup hd haddr => ?stored,
    fun p u d k hrun hno hu hup hd => ?neverStored, fun p u k a hrun => ?image⟩
  case stored =>
    refine ⟨_, step_of_loadMem hu hup hd, ?_⟩
    rw [step_of_storeMem hs hp hr] at hst
    cases hst
    rw [State.reg_setReg_same, haddr, run_keeps_memRead hrun hno, State.memRead_memWrite, if_pos rfl]
  case neverStored =>
    refine ⟨_, step_of_loadMem hu hup hd, ?_⟩
    rw [State.reg_setReg_same, run_keeps_memRead hrun hno]
    rfl
  case image => rw [run_keeps_progRead hrun, progRead_resetWith]

/-! ### The zero padding (R105) -/

theorem decodeOpcode_zero : decodeOpcode 0x00#8 = .nop 0#4 := by decide

theorem step_of_zero_byte {s : State} (hs : s.Fetchable) (hp : s.pend = .op) (hb : s.progRead s.pc = 0x00#8) :
    step s = .next s.advancePc := by
  rw [step_of_op hs hp, hb, decodeOpcode_zero, exec_nop]

/-- `n` zero bytes at admitted addresses are `n` NOPs. -/
theorem run_of_zero_bytes {n : Nat} {s : State} (hs : s.stopped = false) (hp : s.pend = .op)
    (hzero : ∀ j < n, admitted s.policy (s.pc + BitVec.ofNat 16 j) = true ∧
      s.progRead (s.pc + BitVec.ofNat 16 j) = 0x00#8) :
    core.run n s = .next (s.setPc (s.pc + BitVec.ofNat 16 n)) := by
  induction n generalizing s with
  | zero =>
    rw [run_zero, BitVec.add_zero]
    rfl
  | succ n ih =>
    obtain ⟨ha, hb⟩ := hzero 0 (Nat.succ_pos n)
    rw [BitVec.add_zero] at ha hb
    obtain ⟨hhalted, hfaulted⟩ := State.stopped_eq_false.1 hs
    have hshift (j : Nat) : s.pc + BitVec.ofNat 16 (j + 1) = s.advancePc.pc + BitVec.ofNat 16 j := by
      rw [State.pc_advancePc, BitVec.add_assoc, Nat.add_comm j 1, BitVec.ofNat_add]
    have hrest : ∀ j < n, admitted s.advancePc.policy (s.advancePc.pc + BitVec.ofNat 16 j) = true ∧
        s.advancePc.progRead (s.advancePc.pc + BitVec.ofNat 16 j) = 0x00#8 := fun j hj => by
      rw [← hshift]
      exact hzero (j + 1) (Nat.succ_lt_succ hj)
    rw [run_succ_of_next n (step_of_zero_byte ⟨hhalted, hfaulted, ha⟩ hp hb), ih (s := s.advancePc) hs hp hrest, hshift]
    rfl

theorem toNat_pc_add_ofNat {p : PcWord} {j : Nat} (h : p.toNat + j < 65536) :
    (p + BitVec.ofNat 16 j).toNat = p.toNat + j := by
  rw [BitVec.toNat_add, BitVec.toNat_ofNat]
  omega

theorem pc_add_ofNat_sub {p : PcWord} {n : Nat} (h : p.toNat ≤ n) :
    p + BitVec.ofNat 16 (n - p.toNat) = BitVec.ofNat 16 n := by
  apply BitVec.eq_of_toNat_eq
  rw [BitVec.toNat_add, BitVec.toNat_ofNat, BitVec.toNat_ofNat]
  omega

/-- Settles O44: the padding is a run of NOPs up to the last admitted address, and the next fetch faults or wraps. -/
theorem paddingRunsToTheEndOfTheStore : Obligations.PaddingRunsToTheEndOfTheStore := by
  refine fun s hh hf hp => ⟨fun hpolicy hpc hzero => ?signedFault, fun hpolicy hzero => ?unsigned⟩
  case signedFault =>
    have hs := State.stopped_eq_false.2 ⟨hh, hf⟩
    have hrun : core.run (0x8000 - s.pc.toNat) s = .next (s.setPc 0x8000#16) := by
      rw [run_of_zero_bytes hs hp, pc_add_ofNat_sub hpc.le]
      intro j hj
      have hj' := toNat_pc_add_ofNat (p := s.pc) (j := j) (by omega)
      rw [hpolicy, admitted_signedFault_iff_le]
      exact ⟨by omega, hzero _ (by omega) (by omega)⟩
    refine ⟨hrun, ?_⟩
    rw [run_add_of_next hrun, run_succ_of_fault 0 (step_of_upper_half (s := s.setPc 0x8000#16) hs hpolicy le_rfl)]
    rfl
  case unsigned =>
    have hs := State.stopped_eq_false.2 ⟨hh, hf⟩
    rw [run_of_zero_bytes hs hp, pc_add_ofNat_sub s.pc.isLt.le]
    · rfl
    · intro j hj
      have hj' := toNat_pc_add_ofNat (p := s.pc) (j := j) (by omega)
      rw [hpolicy]
      exact ⟨rfl, hzero _ (by omega)⟩

/-! ### How a run ends (R101) -/

theorem drive_of_run_next {k : Nat} {s t : State} (h : core.run k s = .next t) : drive k s = runEndOf t := by
  induction k generalizing s with
  | zero =>
    cases h
    rfl
  | succ k ih =>
    cases hs : s.stopped with
    | true =>
      rw [run_of_stopped hs] at h
      cases h
      exact drive_of_stopped hs (k + 1)
    | false =>
      obtain ⟨v, hsv, hv⟩ := run_succ_eq_next h
      rw [drive_succ_of_next k hs hsv, ih hv]

theorem drive_succ_of_fault {s t : State} (k : Nat) (h : step s = .fault (.fetchOutOfRange t)) :
    drive (k + 1) s = .faulted t := by
  obtain ⟨hs, -, -⟩ := step_fault_cases h
  simp [drive, hs, h]

theorem drive_of_run_fault {k : Nat} {s t : State} (h : core.run k s = .fault (.fetchOutOfRange t)) :
    drive k s = .faulted t := by
  induction k generalizing s with
  | zero => cases h
  | succ k ih =>
    rcases hstep : step s with v | f | r
    · have hs : s.stopped = false := by
        rw [Bool.eq_false_iff]
        intro hs
        rw [run_of_stopped hs] at h
        cases h
      rw [run_succ_of_next k hstep] at h
      rw [drive_succ_of_next k hs hstep, ih h]
    · rw [run_succ_of_fault k hstep] at h
      cases h
      exact drive_succ_of_fault k hstep
    · exact absurd hstep (step_ne_refused s r)

theorem runEndOf_of_halted {t : State} (hf : t.faulted = false) (hh : t.halted = true) : runEndOf t = .halted t := by
  simp [runEndOf, hf, hh]

theorem runEndOf_of_not_stopped {t : State} (h : t.stopped = false) : runEndOf t = .stopped t := by
  obtain ⟨hh, hf⟩ := State.stopped_eq_false.1 h
  simp [runEndOf, hf, hh]

/-- A completed step never sets the fault latch. -/
theorem step_next_keeps_faulted {s t : State} (h : step s = .next t) : t.faulted = s.faulted := by
  rcases step_next_cases h with ⟨-, rfl⟩ | ⟨-, -, r, -, rfl⟩ | ⟨-, -, -, hexec⟩
  · rfl
  · rfl
  · exact (exec_keeps_fault hexec).1

theorem admitted_eq_false {policy : PcFetchPolicy} {p : PcWord} (h : admitted policy p = false) :
    policy = .signedFault ∧ p[15] = true := by
  cases policy with
  | unsigned => cases h
  | signedFault => exact ⟨rfl, by simpa [admitted] using h⟩

/-- Settles O54: a run that completes ends as its last state says, and past a fault or a halt nothing more happens. -/
theorem runEndsHaltedStoppedOrFaulted : Obligations.RunEndsHaltedStoppedOrFaulted := by
  intro s k hi hs
  rcases hrun : core.run k s with t | ⟨t⟩ | r
  · have hit : t.Inv := run_keeps (fun _ _ => step_next_keeps_inv) hi hrun
    have hft : t.faulted = false := run_keeps (P := fun v => v.faulted = false)
      (fun _ _ hv h => (step_next_keeps_faulted h).trans hv) (State.stopped_eq_false.1 hs).2 hrun
    cases hht : t.halted with
    | true =>
      have hstopped : t.stopped = true := State.stopped_eq_true.2 (.inl hht)
      rw [drive_of_run_next hrun, runEndOf_of_halted hft hht]
      refine ⟨hht, hft, hit.halted_op hht, rfl, fun m => ?_⟩
      rw [drive_of_run_next ((run_add_of_next hrun m).trans (run_of_stopped hstopped m)), runEndOf_of_halted hft hht]
    | false =>
      have hgoes : t.stopped = false := State.stopped_eq_false.2 ⟨hht, hft⟩
      rw [drive_of_run_next hrun, runEndOf_of_not_stopped hgoes]
      exact ⟨State.cont_of_not_stopped hgoes, rfl⟩
  · rw [drive_of_run_fault hrun]
    obtain ⟨j, v, hj, hreach, hv⟩ := run_eq_fault hrun
    obtain ⟨hgoes, ha, hf⟩ := step_fault_cases hv
    obtain ⟨hpolicy, hbit⟩ := admitted_eq_false ha
    cases hf
    exact ⟨rfl, (State.stopped_eq_false.1 hgoes).1, rfl, hpolicy, hbit, rfl,
      fun m => drive_of_run_fault (run_of_reaches_fault (by omega) hreach hv)⟩
  · exact absurd hrun (run_ne_refused k s r)

end Sys2Proof.Machine
end

section
/-! The block at its ports (00_scope.md section 5, 10_state.md section 4, 20_memory.md section 1, 30_encoding.md section 5):
the continuation signal, the status ports and the store port; and the host's placing of one instruction
(70_reset_and_hazards.md section 2). -/

namespace Sys2Proof.Machine

/-! ### The status after an enabled edge -/

section
variable {inp : Inputs} (hr : inp.rst = false) (he : inp.stepEn = true)
include hr he

theorem clockEdge_of_next {s t : State} (h : step s = .next t) : clockEdge inp s = t := by
  rw [clockEdge_of_stepEn hr he, stateAfter_of_next h]

theorem clockEdge_of_fault {s t : State} (h : step s = .fault (.fetchOutOfRange t)) : clockEdge inp s = t := by
  rw [clockEdge_of_stepEn hr he, stateAfter_of_fault h]

end

/-- Settles O52: at an admitted edge the step halts or completes without a latch, as the decoded byte says. -/
theorem continuationSignalDropsOnHaltOrFault : Obligations.ContinuationSignalDropsOnHaltOrFault := by
  refine ⟨fun _ => rfl, fun inp s hs hr he => ?edge, fun s t h => State.cont_of_stopped (stopped_of_step_fault h)⟩
  case edge =>
    change (clockEdge inp s).cont = false ↔ s.HaltsNext
    by_cases h : s.HaltsNext
    · rw [clockEdge_of_next hr he (step_of_haltsNext hs h)]
      exact iff_of_true (State.cont_of_stopped rfl) h
    · obtain ⟨t, ht, hhalted, hfaulted, -⟩ := step_of_not_haltsNext hs h
      rw [clockEdge_of_next hr he ht, State.cont_of_not_stopped (State.stopped_eq_false.2 ⟨hhalted, hfaulted⟩)]
      exact iff_of_false (Bool.false_ne_true ·.symm) h

/-- The status fields after an edge that steps: each of the three ends of a step writes them in its own way. -/
theorem status_clockEdge {inp : Inputs} (hr : inp.rst = false) (he : inp.stepEn = true) {s : State}
    (hs : s.stopped = false) :
    ((clockEdge inp s).halted = true ↔ admitted s.policy s.pc = true ∧ s.HaltsNext) ∧
      ((clockEdge inp s).faulted = true ↔ admitted s.policy s.pc = false) ∧
      (admitted s.policy s.pc = false → (clockEdge inp s).faultCause = 1#2) ∧
      (admitted s.policy s.pc = true → (clockEdge inp s).faultCause = s.faultCause) := by
  obtain ⟨hh, hf⟩ := State.stopped_eq_false.1 hs
  rcases step_ends hs with ⟨ha, h⟩ | ⟨hfetch, hn, h⟩ | ⟨hfetch, hn, t, h, hhalted, hfaulted, hcause⟩
  · rw [clockEdge_of_fault hr he h, ha]
    simp [hh, causeFetchOutOfRange]
  · rw [clockEdge_of_next hr he h, hfetch.pc_admitted]
    simp [hf, hn]
  · rw [clockEdge_of_next hr he h, hfetch.pc_admitted]
    simp [hhalted, hfaulted, hcause, hn]

/-- Settles O56: the ports are the state's fields, which an edge steps, keeps or resets. -/
theorem statusPortsShowHaltAndFault : Obligations.StatusPortsShowHaltAndFault := by
  refine fun inp now s => ⟨⟨rfl, rfl, rfl⟩, fun hr he hh hf => ?steps, fun hr hlatched => ?latched, fun hr => ?reset⟩
  case steps => exact status_clockEdge hr he (State.stopped_eq_false.2 ⟨hh, hf⟩)
  case latched =>
    have hedge : clockEdge inp s = s := by
      rw [clockEdge_of_stopped (State.stopped_eq_true.2 hlatched), hr, if_neg Bool.false_ne_true]
    rw [hedge]
    exact ⟨rfl, rfl, rfl⟩
  case reset =>
    rw [clockEdge_of_rst hr]
    exact ⟨rfl, rfl, rfl⟩

/-! ### The store port (R30) -/

/-- A STORE-MEM of register `r` happens at this edge. -/
def StoresAtEdge (inp : Inputs) (s : State) (r : RegIdx) : Prop :=
  inp.rst = false ∧ inp.stepEn = true ∧ s.Fetchable ∧ s.pend = .op ∧ decodeOpcode (s.progRead s.pc) = .storeMem r

theorem stepsAtEdge_iff (inp : Inputs) (s : State) :
    stepsAtEdge inp s = true ↔ inp.rst = false ∧ inp.stepEn = true ∧ s.stopped = false := by
  simp [stepsAtEdge, and_assoc]

theorem storeByte_of_storesAtEdge {inp : Inputs} {s : State} {r : RegIdx} (h : StoresAtEdge inp s r) :
    storeByte inp s = some (s.reg r) := by
  obtain ⟨hr, he, hs, hp, hstore⟩ := h
  have hsteps := (stepsAtEdge_iff inp s).2 ⟨hr, he, hs.not_stopped⟩
  simp only [storeByte, hsteps, fetch_admitted hs.not_stopped hs.pc_admitted, hp, hstore, decodeFetched, if_true]

/-- A fetch finds an opcode byte only at an admitted address with `pend = Op`. -/
theorem fetch_eq_opcode {s t : State} {i : Instr} (h : fetch s = .byte (.opcode i) t) :
    s.Fetchable ∧ s.pend = .op ∧ decodeOpcode (s.progRead s.pc) = i := by
  rcases fetch_cases s with ⟨-, hf⟩ | ⟨-, -, hf⟩ | ⟨hs, ha, hf⟩
  · simp [hf] at h
  · simp [hf] at h
  · obtain ⟨hhalted, hfaulted⟩ := State.stopped_eq_false.1 hs
    cases hp : s.pend with
    | imm r => simp [hf, hp, decodeFetched] at h
    | op =>
      obtain ⟨hi, -⟩ : decodeOpcode (s.progRead s.pc) = i ∧ s.advancePc = t := by
        simpa [hf, hp, decodeFetched] using h
      exact ⟨⟨hhalted, hfaulted, ha⟩, rfl, hi⟩

theorem exists_storesAtEdge_of_storeByte {inp : Inputs} {s : State} {v : Byte} (h : storeByte inp s = some v) :
    ∃ r, StoresAtEdge inp s r := by
  rw [storeByte] at h
  split at h
  case isFalse => cases h
  case isTrue hsteps =>
    obtain ⟨hr, he, -⟩ := (stepsAtEdge_iff inp s).1 hsteps
    split at h
    case h_1 r t hfetch => exact ⟨r, hr, he, fetch_eq_opcode hfetch⟩
    case h_2 => cases h

theorem dmemWe_iff (inp : Inputs) (s : State) : (outputs inp s).dmemWe = true ↔ ∃ r, StoresAtEdge inp s r := by
  change (storeByte inp s).isSome = true ↔ _
  rw [Option.isSome_iff_exists]
  exact ⟨fun ⟨_, h⟩ => exists_storesAtEdge_of_storeByte h, fun ⟨_, h⟩ => ⟨_, storeByte_of_storesAtEdge h⟩⟩

theorem memRead_clockEdge_of_storesAtEdge {inp : Inputs} {s : State} {r : RegIdx} (h : StoresAtEdge inp s r) :
    (clockEdge inp s).memRead (s.reg 2#4) = s.reg r := by
  obtain ⟨hr, he, hs, hp, hstore⟩ := h
  rw [clockEdge_of_next hr he (step_of_storeMem hs hp hstore), State.memRead_memWrite, if_pos rfl]

/-- An edge without reset at which no STORE-MEM happens keeps every byte of the Working Memory. -/
theorem memRead_clockEdge_of_not_stores {inp : Inputs} {s : State} (hr : inp.rst = false)
    (hno : ∀ r, ¬ StoresAtEdge inp s r) (a : Byte) : (clockEdge inp s).memRead a = s.memRead a := by
  cases he : inp.stepEn with
  | false => rw [clockEdge_of_not_stepEn hr he]
  | true =>
    rw [clockEdge_of_stepEn hr he]
    rcases step_answers_stateAfter s with h | h
    · exact memRead_of_not_storesTo h fun ⟨hs, hp, ⟨r, hstore⟩, _⟩ => hno r ⟨hr, he, hs, hp, hstore⟩
    · obtain ⟨-, -, hf⟩ := step_fault_cases h
      rw [Fault.fetchOutOfRange.inj hf, State.memRead_latchFault]

/-- Settles O53: the port is driven exactly at the edge of a STORE-MEM, with the byte its step writes. -/
theorem storePortAgreesWithMemory : Obligations.StorePortAgreesWithMemory := by
  refine fun inp s => ⟨rfl, rfl, ?enable, fun hwe r hstore => ?driven, fun hwe => ?notDriven, fun hr hwe => ?kept⟩
  case enable =>
    rw [dmemWe_iff]
    simp only [StoresAtEdge, exists_and_left]
  case driven =>
    obtain ⟨_, hr, he, hs, hp, -⟩ := (dmemWe_iff inp s).1 hwe
    have h : StoresAtEdge inp s r := ⟨hr, he, hs, hp, hstore⟩
    exact ⟨storeByte_of_storesAtEdge h, memRead_clockEdge_of_storesAtEdge h⟩
  case notDriven => exact Option.isNone_iff_eq_none.1 (Option.isSome_eq_false_iff.1 hwe)
  case kept =>
    exact memRead_clockEdge_of_not_stores hr fun r h =>
      Bool.false_ne_true (hwe.symm.trans ((dmemWe_iff inp s).2 ⟨r, h⟩))

/-! ### Placing one instruction (R97) -/

/-- The byte at the address an instruction is placed at is its opcode byte; a data byte goes to the next address. -/
theorem progRead_placeBytes_encode (s : State) (a : PcWord) (i : Instr) (d : Byte) :
    (s.placeBytes a (encode i d)).progRead a = encodeOpcode i := by
  rcases i.eq_loadImm_or_ne with ⟨r, rfl⟩ | hne
  · have hnext : a.toNat ≠ (a + 1#16).toNat := by bv_omega
    change Memory.read (Memory.write (Memory.write s.prog a.toNat _) (a + 1#16).toNat d) a.toNat = _
    rw [Memory.read_write, if_neg hnext, Memory.read_write, if_pos rfl]
  · rw [encode, dataBytes_of_ne_loadImm hne]
    change Memory.read (Memory.write s.prog a.toNat _) a.toNat = _
    rw [Memory.read_write, if_pos rfl]

/-- A table word that decodes is the encoding of its instruction, followed by bytes the placing ignores. -/
theorem withFetchWord_eq {s : State} {nbits w : Nat} {i : Instr} (h : decodeTableWord nbits w = some i) :
    ∃ d, s.withFetchWord nbits w = s.readyToFetch.placeBytes s.readyToFetch.pc (encode i d) := by
  rw [decodeTableWord] at h
  rw [State.withFetchWord, State.placeInstr]
  rcases bytes_cases (tableBytes nbits w) with hb | ⟨r, hb⟩ | ⟨j, d, rest, hb⟩
  · simp [hb] at h
  · simp [hb, decode_singleton_loadImm] at h
  · rw [hb, decode_encode_append] at h ⊢
    cases h
    exact ⟨d, rfl⟩

/-- Settles O55: placing writes the Program Store alone, and the state made ready fetches at an admitted address. -/
theorem placedInstructionRunsNext : Obligations.PlacedInstructionRunsNext := by
  intro s nbits w i hw
  obtain ⟨d, hu⟩ := withFetchWord_eq (s := s) hw
  have hbyte := progRead_placeBytes_encode s.readyToFetch s.readyToFetch.pc i d
  obtain ⟨m, hm⟩ := placeBytes_frame (encode i d) s.readyToFetch s.readyToFetch.pc
  rw [hm] at hu hbyte
  have hfetch : State.Fetchable { s.readyToFetch with prog := m } := ⟨rfl, rfl, readyToFetch_admitted s⟩
  refine ⟨_, hu, hfetch, rfl, ?decodes, step_of_encodeOpcode hfetch rfl hbyte, fun _ => rfl, fun _ => rfl,
    fun ha => if_pos ha⟩
  exact (congrArg decodeOpcode hbyte).trans (decodeOpcode_encodeOpcode i)

end Sys2Proof.Machine
end

section
/-! The image text (70_reset_and_hazards.md section 2, R98): hexadecimal digits, digit pairs and the two errors. -/

namespace Sys2Proof.Machine

/-! ### Hexadecimal digits -/

theorem isHexDigit_iff_range (c : Char) : isHexDigit c = true ↔
    (48 ≤ c.toNat ∧ c.toNat ≤ 57) ∨ (97 ≤ c.toNat ∧ c.toNat ≤ 102) ∨ (65 ≤ c.toNat ∧ c.toNat ≤ 70) := by
  simp [isHexDigit, or_assoc]

theorem isHexDigit_iff_mem (c : Char) : isHexDigit c = true ↔ c ∈ "0123456789abcdefABCDEF".toList := by
  have hcodes : "0123456789abcdefABCDEF".toList.map Char.toNat =
      List.range' 48 10 ++ (List.range' 97 6 ++ List.range' 65 6) := by decide
  have hinj : Function.Injective Char.toNat := fun _ _ => Char.toNat_inj.1
  rw [← List.mem_map_of_injective hinj, hcodes, isHexDigit_iff_range]
  simp only [List.mem_append, List.mem_range'_1]
  omega

theorem hexDigit_eq_none_iff (c : Char) : hexDigit c = none ↔ isHexDigit c = false := by
  rw [Bool.eq_false_iff, Ne, isHexDigit_iff_range, hexDigit]
  split_ifs <;> simp <;> omega

theorem exists_hexDigit {c : Char} (h : isHexDigit c = true) : ∃ v, hexDigit c = some v :=
  Option.ne_none_iff_exists'.1 fun hnone => Bool.false_ne_true (((hexDigit_eq_none_iff c).1 hnone).symm.trans h)

/-! ### Digit pairs -/

theorem hexTextWf_iff (text : List Char) :
    hexTextWf text = true ↔ (∀ c ∈ text, isHexDigit c = true) ∧ text.length % 2 = 0 := by
  simp [hexTextWf]

theorem hexTextWf_cons_cons (h l : Char) (rest : List Char) :
    hexTextWf (h :: l :: rest) = (isHexDigit h && (isHexDigit l && hexTextWf rest)) := by
  simp [hexTextWf, Bool.and_assoc, Nat.add_assoc]

/-- `bytes` are the digit pairs of `text`: byte `k` is digits `2k` (high) and `2k + 1` (low). -/
def ReadsDigitPairs (text : List Char) (bytes : List Byte) : Prop :=
  bytes.length = text.length / 2 ∧
    ∀ (k : Nat) (h l : Char) (vh vl : BitVec 4), text[2 * k]? = some h → text[2 * k + 1]? = some l →
      hexDigit h = some vh → hexDigit l = some vl → bytes[k]? = some (vh ++ vl)

theorem readsDigitPairs_nil : ReadsDigitPairs [] [] := ⟨rfl, fun _ _ _ _ _ hh => by simp at hh⟩

theorem ReadsDigitPairs.cons {h l : Char} {vh vl : BitVec 4} {rest : List Char} {bytes : List Byte}
    (hh : hexDigit h = some vh) (hl : hexDigit l = some vl) (hrest : ReadsDigitPairs rest bytes) :
    ReadsDigitPairs (h :: l :: rest) ((vh ++ vl) :: bytes) := by
  obtain ⟨hlen, hpairs⟩ := hrest
  refine ⟨by simp only [List.length_cons]; omega, fun k h' l' vh' vl' ht hu hh' hl' => ?_⟩
  cases k with
  | zero =>
    obtain rfl : h = h' := Option.some.inj ht
    obtain rfl : l = l' := Option.some.inj hu
    rw [Option.some.inj (hh.symm.trans hh'), Option.some.inj (hl.symm.trans hl')]
    rfl
  | succ k => exact hpairs k h' l' vh' vl' ht hu hh' hl'

/-! ### Decoding a text -/

theorem decodeHex_of_not_wf (text : List Char) (hwf : hexTextWf text = false) :
    decodeHex text = .error .decodeError := by
  match text with
  | [] => cases hwf
  | [_] => rfl
  | h :: l :: rest =>
    rw [hexTextWf_cons_cons, Bool.and_eq_false_iff, Bool.and_eq_false_iff, ← hexDigit_eq_none_iff,
      ← hexDigit_eq_none_iff] at hwf
    rcases hwf with hh | hl | hrest
    · simp [decodeHex, hh]
    · simp [decodeHex, hl]
    · simp [decodeHex, decodeHex_of_not_wf rest hrest]

theorem decodeHex_of_wf (text : List Char) (hwf : hexTextWf text = true) :
    ∃ bytes, decodeHex text = .ok bytes ∧ ReadsDigitPairs text bytes := by
  match text with
  | [] => exact ⟨[], rfl, readsDigitPairs_nil⟩
  | [c] => simp [hexTextWf] at hwf
  | h :: l :: rest =>
    rw [hexTextWf_cons_cons, Bool.and_eq_true, Bool.and_eq_true] at hwf
    obtain ⟨hh, hl, hrest⟩ := hwf
    obtain ⟨vh, hvh⟩ := exists_hexDigit hh
    obtain ⟨vl, hvl⟩ := exists_hexDigit hl
    obtain ⟨bytes, hbytes, hpairs⟩ := decodeHex_of_wf rest hrest
    exact ⟨(vh ++ vl) :: bytes, by simp only [decodeHex, hvh, hvl, hbytes], hpairs.cons hvh hvl⟩

/-- Settles O49: a well-formed text decodes to its digit pairs, half as many bytes as digits, which is what the capacity
check then reads. -/
theorem imageTextDecodesByDigitPairs : Obligations.ImageTextDecodesByDigitPairs := by
  refine ⟨isHexDigit_iff_mem, by decide, by decide, hexTextWf_iff, fun text hwf => ?malformed,
    fun text hwf hlen => ?fits, fun text hwf hlen => ?tooLong⟩
  case malformed => simp only [loadText, decodeHex_of_not_wf text hwf]
  case fits =>
    obtain ⟨bytes, hbytes, hcount, hpairs⟩ := decodeHex_of_wf text hwf
    have hfits := (imageFits_iff bytes).2 (by omega)
    exact ⟨⟨bytes, hfits⟩, by simp only [loadText, hbytes, imageOfBytes_of_fits hfits], hcount, hpairs⟩
  case tooLong =>
    obtain ⟨bytes, hbytes, hcount, -⟩ := decodeHex_of_wf text hwf
    obtain ⟨-, heven⟩ := (hexTextWf_iff text).1 hwf
    have hnot : ¬ imageFits bytes = true := by
      rw [imageFits_iff]
      omega
    simp only [loadText, hbytes, imageOfBytes_of_not_fits hnot]

end Sys2Proof.Machine
end
